-- ==== Sys2Proof/Word.lean ====
section
/-! DEFINITION. The byte: the width of an encoded instruction word and of every element of the output stream
(00_scope.md R4 `WORD_BITS`, R5 for the bit numbering: bit 7 is the most significant). -/

namespace Sys2Proof

/-- A byte of the output stream `OUT`; also the Mov immediate byte and the hold register (`IMM_BITS` = 8, R4). -/
abbrev Byte := BitVec 8

/-- An encoded instruction word, "an 8-bit value divided into three bit-fields" (R51). -/
abbrev Word := BitVec 8

end Sys2Proof
end

