-- ==== Sys2Proof/Config.lean ====
section
/-! DEFINITION. What a build of RX8-ENC fixes (00_scope.md R4), and the free values: values the spec leaves
open and the model leaves unconstrained. -/

namespace Sys2Proof

/-- `NARROW_MODE` (R4): how an operand wider than its field is narrowed. The source contradicts itself
(90_conflicts.md C1); `field` is the resolution and the default, `byte` the reading kept beside it. -/
inductive NarrowMode where
  /-- `FIELD`: each value is masked to its own field (R52). -/
  | field
  /-- `BYTE`: each value is narrowed to a byte, then shifted and ORed unmasked (R53). -/
  | byte
  deriving DecidableEq, Repr

/-- The elaboration-time parameters of a build that are not fixed by the source (R4, R21): constant for the
life of a build, never written by a step. Assumption log entry 1. -/
structure Config where
  /-- `NARROW_MODE`. -/
  narrowMode : NarrowMode
  /-- `OPW`, the width in bits of the `dest` and `source` operand ports; a legal build has 8 or more. -/
  opw : Nat
  deriving DecidableEq, Repr

/-- The spec's default values of the two parameters (R4): `FIELD` and 32. -/
def Config.default : Config := { narrowMode := .field, opw := 32 }

/-- The parameter of the Line Parser that `FE_INT_OVERFLOW` stands for (92_eei_decisions.md D20): the source states
neither its integer type nor what a number beyond it does (30_encoding.md R83, 91_not_in_source.md N7). It is no part
of the block. Assumption log entry 16. -/
structure FrontEnd where
  /-- Every number up to this one fits the parser's integer type; a larger one may not. -/
  intMax : Nat
  deriving DecidableEq, Repr

/-- FREE VALUE (assumption log entry 3): what a reset cycle leaves in `imm_hold`, which R180 leaves unspecified.
It has no body: no proof can learn a value of it. -/
opaque Config.freeByte : Nat → Byte

/-- FREE VALUE (assumption log entry 11): what stands on an operand port that the offered variant does not use,
"don't care" by 10_state.md R13. -/
opaque Config.dontCare : Nat

end Sys2Proof
end

