-- ==== Sys2Proof/Syntax.lean ====
section
/-! DEFINITION. The input datum of the block: the Instruction value (10_state.md R10), the variant tag (R12), the
port record (R13), and the layout descriptor a ROM row holds (R14). -/

namespace Sys2Proof

/-- An Instruction: "a closed set of variants, each a fixed-shape operand record" (R10). Operands are natural
numbers without bound (R11); EVERY value of this type is a legal input. -/
inductive Instr where
  /-- `Mov{dest: register, source: immediate}`. -/
  | mov (dest source : Nat)
  /-- `Add{dest: register, source: register}`. -/
  | add (dest source : Nat)
  /-- `Sub{dest: register, source: register}`. -/
  | sub (dest source : Nat)
  /-- `Mult{dest: register, source: register}`. -/
  | mult (dest source : Nat)
  /-- `Div{dest: register, source: register}`. -/
  | div (dest source : Nat)
  /-- `Xor{dest: register, source: register}`. -/
  | xor (dest source : Nat)
  /-- `Cmp{dest: register, source: register}`. -/
  | cmp (dest source : Nat)
  /-- `Out{source: register}`. -/
  | out (source : Nat)
  /-- `In{dest: register}` (`in` is a word of Lean's own). -/
  | inp (dest : Nat)
  /-- `Hlt`, no operands. -/
  | hlt
  deriving DecidableEq, Repr

/-- The ten variants without their operands: what the tag names (R12) and what addresses the layout ROM (R14). -/
inductive Variant where
  | mov | add | sub | mult | div | xor | cmp | out | inp | hlt
  deriving DecidableEq, Repr

/-- What drives a field of the encoded word (R14): constant zero, the `dest` operand or the `source` operand. -/
inductive Select where
  | zero | dest | source
  deriving DecidableEq, Repr

/-- A row of the layout ROM, the *layout descriptor* of R14. -/
structure Layout where
  /-- The opcode field value. -/
  op : BitVec 4
  /-- What drives field r0. -/
  s0 : Select
  /-- What drives field r1. -/
  s1 : Select
  /-- A trailing raw byte carrying `source` follows the word. -/
  tb : Bool
  /-- The literal byte `0xFF` is emitted instead of a packed word. -/
  lit : Bool
  deriving DecidableEq, Repr

/-- The input record as the host presents it, `(tag, dest, source)` (R13). The tag is 4 bits, so codes 10 to 15,
which name no Instruction (R12), can be written down here and are refused when offered (R166). -/
structure PortRecord where
  tag : BitVec 4
  dest : Nat
  source : Nat
  deriving DecidableEq, Repr

end Sys2Proof
end

