-- ==== Sys2Proof/Machine/Operands.lean ====
section
/-! DEFINITION. The operand path of the block: the slices and truncations of 00_scope.md R6, the operand
multiplexers (30_encoding.md R56), and the bit-field shifter in its two narrowing modes (R52, R53). All values are
unsigned natural numbers; there is no flag, carry or overflow (R65). -/

namespace Sys2Proof

/-- `trunc_N(v)` (R6): "narrowing a wider integer to a fixed bit width by discarding high-order bits". -/
def trunc (n v : Nat) : Nat := v % 2 ^ n

/-- `v[hi:lo]` (R6): the field of `v` from bit `hi` down to bit `lo`. -/
def slice (v hi lo : Nat) : Nat := v / 2 ^ lo % 2 ^ (hi - lo + 1)

/-- `Pack_FIELD` (R52): each value masked to its own field, shifted to its place and ORed. -/
def packField (op a b : Nat) : Word :=
  BitVec.ofNat 8 ((trunc 4 op <<< 4) ||| (trunc 2 a <<< 2) ||| trunc 2 b)

/-- `Pack_BYTE` (R53): each value narrowed to a byte, shifted, ORed, and the result narrowed to a byte. -/
def packByte (op a b : Nat) : Word :=
  BitVec.ofNat 8 (trunc 8 ((trunc 8 op <<< 4) ||| (trunc 8 a <<< 2) ||| trunc 8 b))

/-- `Pack`, according to `NARROW_MODE` (R140). -/
def pack : NarrowMode → Nat → Nat → Nat → Word
  | .field => packField
  | .byte => packByte

/-- The Mov immediate byte, `trunc_8(source)` (R58). -/
def imm8 (source : Nat) : Byte := BitVec.ofNat 8 (trunc 8 source)

/-- An operand multiplexer (R56): the full operand value passes; narrowing comes after it. -/
def Select.mux (dest source : Nat) : Select → Nat
  | .zero => 0
  | .dest => dest
  | .source => source

end Sys2Proof
end

