-- ==== Sys2Proof/WellFormed.lean ====
section
/-! DEFINITION. Checks on instructions and configurations. No check here is a condition for an instruction to run:
"there is no invalid Instruction value" (10_state.md R10) and the encoder accepts every operand (R11, R160). A
well-formed instruction is one that its encoding represents exactly, the set on which the spec states an exact
round trip (30_encoding.md R66). -/

namespace Sys2Proof

/-- An *in-range* instruction: every register operand is in 0 to 3 (00_scope.md glossary, R54). -/
def Instr.inRange : Instr → Bool
  | .mov d _ => d < 4
  | .add d s | .sub d s | .mult d s | .div d s | .xor d s | .cmp d s => d < 4 && s < 4
  | .out s => s < 4
  | .inp d => d < 4
  | .hlt => true

/-- A well-formed instruction: in range, and a Mov's immediate below 256. On these the normalisation of R66 is the
identity. -/
def Instr.wf (i : Instr) : Bool :=
  i.inRange && match i with
    | .mov _ s => s < 256
    | _ => true

/-- Every operand is at most `n`. -/
def Instr.operandsUpTo (n : Nat) : Instr → Bool
  | .mov d s | .add d s | .sub d s | .mult d s | .div d s | .xor d s | .cmp d s => d ≤ n && s ≤ n
  | .out s => s ≤ n
  | .inp d => d ≤ n
  | .hlt => true

/-- A legal build: `OPW` is 8 or more (R4). -/
def Config.wf (c : Config) : Bool := 8 ≤ c.opw

/-- A Line Parser the rules allow: it accepts the numbers the rules say are accepted, `r1024` and `1024` the largest
of them (30_encoding.md R74, R75). -/
def FrontEnd.wf (fe : FrontEnd) : Bool := 1024 ≤ fe.intMax

end Sys2Proof
end

