-- ==== Sys2Proof/Decode.lean ====
section
/-! DEFINITION. Reading bytes and port records as instructions, and the reference encoder: the tag codes
(10_state.md R12), the port record (R13), `Split` (30_encoding.md R61), the length rule (R60), the strict reference
decoder (R66), `DecOpcodes` (R62); then `Enc` and `EncSeq` (44_sequence_and_steps.md R140, R141). -/

namespace Sys2Proof

/-! ## Variants, tags and port records -/

/-- The 4-bit tag of a variant, in the order of the source's list (R12). -/
def Variant.tag : Variant → BitVec 4
  | .mov => 0
  | .add => 1
  | .sub => 2
  | .mult => 3
  | .div => 4
  | .xor => 5
  | .cmp => 6
  | .out => 7
  | .inp => 8
  | .hlt => 9

/-- The variant a tag names; codes 10 to 15 name none (R12). -/
def Variant.ofTag (t : BitVec 4) : Option Variant :=
  match t.toNat with
  | 0 => some .mov
  | 1 => some .add
  | 2 => some .sub
  | 3 => some .mult
  | 4 => some .div
  | 5 => some .xor
  | 6 => some .cmp
  | 7 => some .out
  | 8 => some .inp
  | 9 => some .hlt
  | _ => none

/-- The instruction of a variant with the values on the two operand ports; a port the variant does not use is
ignored (R13). -/
def Instr.ofVariant : Variant → Nat → Nat → Instr
  | .mov,  d, s => .mov d s
  | .add,  d, s => .add d s
  | .sub,  d, s => .sub d s
  | .mult, d, s => .mult d s
  | .div,  d, s => .div d s
  | .xor,  d, s => .xor d s
  | .cmp,  d, s => .cmp d s
  | .out,  _, s => .out s
  | .inp,  d, _ => .inp d
  | .hlt,  _, _ => .hlt

/-- The variant of an instruction. -/
def Instr.variant : Instr → Variant
  | .mov _ _ => .mov
  | .add _ _ => .add
  | .sub _ _ => .sub
  | .mult _ _ => .mult
  | .div _ _ => .div
  | .xor _ _ => .xor
  | .cmp _ _ => .cmp
  | .out _ => .out
  | .inp _ => .inp
  | .hlt => .hlt

/-- A value as a port of `opw` bits carries it: `v mod 2^OPW` (R11). -/
def portValue (opw v : Nat) : Nat := trunc opw v

/-- The instruction a port record presents to a build with operand ports of `opw` bits; none for the tags 10 to 15
(R12, R13). -/
def PortRecord.instr (opw : Nat) (r : PortRecord) : Option Instr :=
  (Variant.ofTag r.tag).map fun v => Instr.ofVariant v (portValue opw r.dest) (portValue opw r.source)

/-- An instruction with every operand narrowed to a port of `opw` bits (R11, R55). -/
def Instr.onPorts (opw : Nat) : Instr → Instr
  | .mov d s  => .mov (portValue opw d) (portValue opw s)
  | .add d s  => .add (portValue opw d) (portValue opw s)
  | .sub d s  => .sub (portValue opw d) (portValue opw s)
  | .mult d s => .mult (portValue opw d) (portValue opw s)
  | .div d s  => .div (portValue opw d) (portValue opw s)
  | .xor d s  => .xor (portValue opw d) (portValue opw s)
  | .cmp d s  => .cmp (portValue opw d) (portValue opw s)
  | .out s    => .out (portValue opw s)
  | .inp d    => .inp (portValue opw d)
  | .hlt      => .hlt

/-- A port record that presents the instruction. Ports the variant does not use carry 0: DESIGN CHOICE, assumption
log entry 11 (safe: no output depends on them, R13). -/
def Instr.record : Instr → PortRecord
  | .mov d s  => { tag := Variant.mov.tag,  dest := d, source := s }
  | .add d s  => { tag := Variant.add.tag,  dest := d, source := s }
  | .sub d s  => { tag := Variant.sub.tag,  dest := d, source := s }
  | .mult d s => { tag := Variant.mult.tag, dest := d, source := s }
  | .div d s  => { tag := Variant.div.tag,  dest := d, source := s }
  | .xor d s  => { tag := Variant.xor.tag,  dest := d, source := s }
  | .cmp d s  => { tag := Variant.cmp.tag,  dest := d, source := s }
  | .out s    => { tag := Variant.out.tag,  dest := 0, source := s }
  | .inp d    => { tag := Variant.inp.tag,  dest := d, source := 0 }
  | .hlt      => { tag := Variant.hlt.tag,  dest := 0, source := 0 }

/-! ## The reference decoder -/

/-- `Split` (R61): the three fields of a byte, `(w[7:4], w[3:2], w[1:0])`. -/
def split (w : Word) : Nat × Nat × Nat :=
  (slice w.toNat 7 4, slice w.toNat 3 2, slice w.toNat 1 0)

/-- How long the instruction is whose first byte is `w`: two bytes when bits 7:4 are `0001`, else one (R60). -/
def instrLength (w : Word) : Nat := if (split w).1 = 1 then 2 else 1

/-- Why the reference decoder rejects a byte at an instruction boundary (R66, 92_eei_decisions.md D15). The names
are the model's; R66 says only `invalid`. Assumption log entry 13. -/
inductive DecodeError where
  /-- There is no byte. -/
  | noByte
  /-- A Mov word with no immediate byte after it. -/
  | loneMovWord
  /-- Field r1 of a Mov, Out or In is not zero; the opcode is given. -/
  | fieldR1NotZero (opcode : Nat)
  /-- The opcode belongs to no variant, and the byte is not `0xFF`. -/
  | unassignedOpcode (opcode : Nat)
  deriving DecidableEq, Repr

/-- What the decoder answers on a list of bytes: the first instruction with the bytes after it, or a rejection by
name. -/
inductive Decoded where
  | instr (i : Instr) (rest : List Byte)
  | rejected (e : DecodeError)
  deriving DecidableEq, Repr

/-- One round of the strict reference decoder `DecStream` (R66), at an instruction boundary. -/
def decode : List Byte → Decoded
  | [] => .rejected .noByte
  | w :: rest =>
    if w = 0xFF then .instr .hlt rest
    else
      let a := (split w).2.1
      let b := (split w).2.2
      match (split w).1 with
      | 1 =>
        if b = 0 then
          match rest with
          | [] => .rejected .loneMovWord
          | imm :: rest' => .instr (.mov a imm.toNat) rest'
        else .rejected (.fieldR1NotZero 1)
      | 2 => .instr (.add a b) rest
      | 3 => .instr (.sub a b) rest
      | 4 => .instr (.mult a b) rest
      | 5 => .instr (.div a b) rest
      | 7 => .instr (.xor a b) rest
      | 8 => .instr (.cmp a b) rest
      | 13 => if b = 0 then .instr (.out a) rest else .rejected (.fieldR1NotZero 13)
      | 14 => if b = 0 then .instr (.inp a) rest else .rejected (.fieldR1NotZero 14)
      | o => .rejected (.unassignedOpcode o)

/-- What `DecStream` answers on a whole stream: the instructions, or `invalid(p)` with the reason (R66). -/
inductive DecodedStream where
  | instrs (is : List Instr)
  | invalid (position : Nat) (e : DecodeError)
  deriving DecidableEq, Repr

/-- `DecStream` from position `p` on. The fuel bounds the number of rounds; every round consumes a byte, so as much
fuel as there are bytes is enough. -/
def decStreamFrom : Nat → Nat → List Byte → DecodedStream
  | _, _, [] => .instrs []
  | 0, p, _ :: _ => .invalid p .noByte
  | fuel + 1, p, w :: rest =>
    match decode (w :: rest) with
    | .rejected e => .invalid p e
    | .instr i rest' =>
      match decStreamFrom fuel (p + instrLength w) rest' with
      | .instrs is => .instrs (i :: is)
      | .invalid p' e => .invalid p' e

/-- `DecStream` (R66): the strict reference decoder of a stream. -/
def decStream (bs : List Byte) : DecodedStream := decStreamFrom bs.length 0 bs

/-- `DecOpcodes` (R62): the opcode nibbles at the instruction boundaries, a Mov's second byte skipped. -/
def decOpcodes : List Byte → List Nat
  | [] => []
  | w :: rest =>
    if (split w).1 = 1 then
      match rest with
      | [] => [1]
      | _ :: rest' => 1 :: decOpcodes rest'
    else (split w).1 :: decOpcodes rest

/-! ## The reference encoder -/

/-- `Enc` (R140): the one or two bytes of an instruction. -/
def encode (m : NarrowMode) : Instr → List Byte
  | .mov d s  => [pack m 1 d 0, imm8 s]
  | .add d s  => [pack m 2 d s]
  | .sub d s  => [pack m 3 d s]
  | .mult d s => [pack m 4 d s]
  | .div d s  => [pack m 5 d s]
  | .xor d s  => [pack m 7 d s]
  | .cmp d s  => [pack m 8 d s]
  | .out s    => [pack m 13 s 0]
  | .inp d    => [pack m 14 d 0]
  | .hlt      => [0xFF]

/-- `EncSeq` (R141): the concatenation, in order, of the encodings. -/
def encodeSeq (m : NarrowMode) : List Instr → List Byte
  | [] => []
  | i :: rest => encode m i ++ encodeSeq m rest

/-- The number of bytes an instruction contributes: "exactly 1 byte except Mov which contributes exactly 2" (R33). -/
def Instr.size : Instr → Nat
  | .mov _ _ => 2
  | _ => 1

/-- `opc` (R62): the opcode of R57, and 15 for Hlt, which has none (R62, 92_eei_decisions.md D14). -/
def Instr.opc : Instr → Nat
  | .mov _ _ => 1
  | .add _ _ => 2
  | .sub _ _ => 3
  | .mult _ _ => 4
  | .div _ _ => 5
  | .xor _ _ => 7
  | .cmp _ _ => 8
  | .out _ => 13
  | .inp _ => 14
  | .hlt => 15

/-- `norm` (R66): every register operand `v` replaced by `v mod 4`, a Mov immediate by `source mod 256`. -/
def Instr.norm : Instr → Instr
  | .mov d s  => .mov (trunc 2 d) (trunc 8 s)
  | .add d s  => .add (trunc 2 d) (trunc 2 s)
  | .sub d s  => .sub (trunc 2 d) (trunc 2 s)
  | .mult d s => .mult (trunc 2 d) (trunc 2 s)
  | .div d s  => .div (trunc 2 d) (trunc 2 s)
  | .xor d s  => .xor (trunc 2 d) (trunc 2 s)
  | .cmp d s  => .cmp (trunc 2 d) (trunc 2 s)
  | .out s    => .out (trunc 2 s)
  | .inp d    => .inp (trunc 2 d)
  | .hlt      => .hlt

/-! ## Words numbered as the opcode table numbers them -/

/-- The bytes of an instruction whose bits are `w`: the first byte is bits 7..0, the second bits 15..8; bits from
`nbits` up are zero, up to the longest instruction, two bytes (R50). -/
def tableBytes (nbits w : Nat) : List Byte :=
  let v := trunc nbits w
  [BitVec.ofNat 8 (slice v 7 0), BitVec.ofNat 8 (slice v 15 8)]

/-- The instruction the reference decoder reads from those bytes. -/
def decodeTableWord (nbits w : Nat) : Option Instr :=
  match decode (tableBytes nbits w) with
  | .instr i _ => some i
  | .rejected _ => none

end Sys2Proof
end

