-- ==== Sys2Proof/Machine/Rom.lean ====
section
/-! DEFINITION. The layout ROM (10_state.md R14): a constant table of ten rows, one per variant, never written
(R15); its bit format; and the output multiplexer's first byte (44_sequence_and_steps.md R140, R142). -/

namespace Sys2Proof

/-- The row of a variant, the source's opcode table row for row (R14). The unused fields of the Hlt row are stored
as zero (R15). -/
def rom : Variant → Layout
  | .mov  => { op := 1,  s0 := .dest,   s1 := .zero,   tb := true,  lit := false }
  | .add  => { op := 2,  s0 := .dest,   s1 := .source, tb := false, lit := false }
  | .sub  => { op := 3,  s0 := .dest,   s1 := .source, tb := false, lit := false }
  | .mult => { op := 4,  s0 := .dest,   s1 := .source, tb := false, lit := false }
  | .div  => { op := 5,  s0 := .dest,   s1 := .source, tb := false, lit := false }
  | .xor  => { op := 7,  s0 := .dest,   s1 := .source, tb := false, lit := false }
  | .cmp  => { op := 8,  s0 := .dest,   s1 := .source, tb := false, lit := false }
  | .out  => { op := 13, s0 := .source, s1 := .zero,   tb := false, lit := false }
  | .inp  => { op := 14, s0 := .dest,   s1 := .zero,   tb := false, lit := false }
  | .hlt  => { op := 0,  s0 := .zero,   s1 := .zero,   tb := false, lit := true }

/-- Select codes `ZERO` = 0, `DEST` = 1, `SOURCE` = 2 (R15). -/
def Select.code : Select → BitVec 2
  | .zero => 0
  | .dest => 1
  | .source => 2

/-- A row as bits, `{lit, tb, s1, s0, op}` (R15). -/
def Layout.bits (l : Layout) : BitVec 10 :=
  BitVec.ofBool l.lit ++ BitVec.ofBool l.tb ++ l.s1.code ++ l.s0.code ++ l.op

/-- `first` (R140): what the output multiplexer selects while `ph` = 0, the literal `0xFF` or the packed word of
the multiplexed operands. -/
def Layout.firstByte (l : Layout) (m : NarrowMode) (dest source : Nat) : Byte :=
  if l.lit then 0xFF else pack m l.op.toNat (l.s0.mux dest source) (l.s1.mux dest source)

end Sys2Proof
end

