-- ==== Sys2Proof/Machine/State.lean ====
section
/-! DEFINITION. The state of RX8-ENC as plain data, the reasons a step can stop, and the state right after reset
(10_state.md R16 to R18, R23, R26; 70_reset_and_hazards.md R180, R188, R189). -/

namespace Sys2Proof.Machine

/-- The phase register `ph`, one bit (R16). -/
inductive Phase where
  /-- `ph` = 0: between instructions, one can be accepted. -/
  | idle
  /-- `ph` = 1: the first byte of a Mov has been emitted and its immediate byte has not. -/
  | pending
  deriving DecidableEq, Repr

/-- The bit the phase is held in (R16). -/
def Phase.bit : Phase → BitVec 1
  | .idle => 0
  | .pending => 1

/-- The environment's inputs in one clock cycle (R25): the reset pin, whether the host offers the next instruction
of `IN`, whether the sink is ready. -/
structure Pins where
  rst : Bool
  offer : Bool
  outReady : Bool
  deriving DecidableEq, Repr

/-- A cycle without reset in which the host offers and the sink is ready. -/
def Pins.ready : Pins := { rst := false, offer := true, outReady := true }

/-- `OUT` as (offset, byte) cells in one canonical form, offsets strictly rising (20_memory.md R30). An unlisted
offset holds no byte: it has not been written. Assumption log entry 12. -/
abbrev Memory := List Host.Cell

/-- The machine state. `ph`, `immHold`, `ipos`, `opos` and `out` are the spec's state (R26); `cfg`, `input`,
`pins` and `pinsAfter` are the parameters of a run (R27), held here because a step takes nothing but a state; `resetDone`, `cutRun`
and `free` are the model's own. The layout ROM is constant (R15) and is the definition `rom`. -/
structure State where
  /-- `NARROW_MODE` and `OPW` (R4); no step writes them. -/
  cfg : Config
  /-- `IN`, the input sequence, as port records (R13, R23, R35); no step writes it. -/
  input : List PortRecord
  /-- The schedule of the handshakes and of reset, one entry per clock cycle still to come (R27, R185). -/
  pins : List Pins
  /-- What the environment does in every cycle after the end of the schedule, for ever: a sink that is never ready
  again, or a host that stops offering, is written here (70_reset_and_hazards.md R186). Assumption log entry 5. -/
  pinsAfter : Pins
  /-- The block has been reset since power-up (R188, premise `reset_done` of R189). -/
  resetDone : Bool
  /-- `ph`, the phase register (R16). -/
  ph : Phase
  /-- `imm_hold`, the immediate hold register (R17). -/
  immHold : Byte
  /-- `ipos`, the number of instructions accepted so far (R18). -/
  ipos : Nat
  /-- `opos`, the number of bytes emitted so far (R18). -/
  opos : Nat
  /-- `OUT`, the output byte stream (R30). -/
  out : Memory
  /-- The last reset cycle was taken with `ph` = 1: the run it ended is without meaning (R181). -/
  cutRun : Bool
  /-- How many free values have been drawn (assumption log entry 3). -/
  free : Nat
  deriving DecidableEq, Repr

/-- RX8-ENC raises NO exception, for any input (60_exceptions.md R160): the list of faults is empty. -/
inductive Fault where
  deriving DecidableEq, Repr

/-- Why the model has no meaning for a step. -/
inductive Refusal where
  /-- An instruction whose meaning is not written: raised by an arm of `exec` alone; safe. No arm raises it. -/
  | notModelled (mnemonic : String)
  /-- The offered port record has a tag of 10 to 15, which names no Instruction: "a port-level model refuses it"
  (60_exceptions.md R166). Raised by the ACCEPT cycle; safe (errs toward unprovable). -/
  | reservedTag (tag : BitVec 4)
  /-- The sink is ready and the block has not been reset since power-up, so `ph` is unknown: "Using the block before
  reset: refuse" (70_reset_and_hazards.md R188, 93_implementation_defined.md U7). Raised by the cycle; safe. -/
  | usedBeforeReset
  deriving DecidableEq, Repr

/-- The machine right after reset (R26): `ph` = 0, both positions 0, `OUT` empty. `imm_hold` is "unspecified": 0 is
the model's DESIGN CHOICE (assumption log entry 2). The configuration is the spec's default (R4). The input sequence
and the schedule are the environment's: no input is given yet, and the schedule is a host and a sink that are always
ready (log entries 5 and 6). -/
def State.reset : State where
  cfg := Config.default
  input := []
  pins := []
  pinsAfter := Pins.ready
  resetDone := true
  ph := .idle
  immHold := 0
  ipos := 0
  opos := 0
  out := []
  cutRun := false
  free := 0

end Sys2Proof.Machine
end

