-- ==== Sys2Proof/Machine/Ops.lean ====
section
/-! DEFINITION. The named operations over the output stream and the registers: reading and writing `OUT`
(00_scope.md R7 `MemRead`, `MemWrite`, `Emit`), the two steps ACCEPT and DRAIN (44_sequence_and_steps.md R142, R143),
and the reset action (70_reset_and_hazards.md R180). The block takes no exception (60_exceptions.md R160, R164), so
there is no exception entry and no return from one. -/

namespace Sys2Proof.Machine

/-! ## The output stream -/

/-- The canonical form of `OUT`: offsets strictly rising. -/
abbrev Memory.wf (m : Memory) : Prop := m.Pairwise fun x y => x.1 < y.1

/-- The byte at an offset, none where nothing has been written. -/
def Memory.read : Memory → Nat → Option Byte
  | [], _ => none
  | c :: rest, a => if c.1 = a then some c.2 else Memory.read rest a

/-- `MemWrite(a, 1, b)` (R7): the byte at offset `a` becomes `b`; the canonical form is kept. -/
def Memory.write : Memory → Nat → Byte → Memory
  | [], a, b => [(a, b)]
  | c :: rest, a, b =>
    if a < c.1 then (a, b) :: c :: rest
    else if a = c.1 then (a, b) :: rest
    else c :: Memory.write rest a b

/-- The stream as a list of bytes, in the order of the offsets. -/
def Memory.bytes (m : Memory) : List Byte := m.map Prod.snd

/-- `Emit(b)` (R7): `MemWrite(opos, 1, b); opos <- opos + 1`. -/
def State.emit (b : Byte) (s : State) : State :=
  { s with out := s.out.write s.opos b, opos := s.opos + 1 }

/-! ## The two steps -/

/-- The effect of ACCEPT (R142) for a variant with the values on its operand ports: the output multiplexer's byte is
emitted and `ipos` advances; with a trailing byte, `source` is narrowed into `imm_hold` and `ph` becomes 1. -/
def State.accept (v : Variant) (dest source : Nat) (s : State) : State :=
  let t := s.emit ((rom v).firstByte s.cfg.narrowMode dest source)
  let t := { t with ipos := t.ipos + 1 }
  if (rom v).tb then { t with immHold := imm8 source, ph := .pending } else t

/-- The effect of DRAIN (R143): the held byte is emitted and `ph` becomes 0. -/
def State.drain (s : State) : State :=
  { s.emit s.immHold with ph := .idle }

/-- One step of the block in which an instruction is offered and the sink is ready. With `ph` = 0 it is accepted
(R142). With `ph` = 1 it is not taken and the step is the DRAIN (R143, R183; "the pending immediate always goes
first", R163). Assumption log entry 10. -/
def State.offer (v : Variant) (dest source : Nat) (s : State) : Host.Outcome State Fault Refusal :=
  match s.ph with
  | .idle => .next (s.accept v dest source)
  | .pending => .next s.drain

/-! ## Reset and the clock cycle -/

/-- The reset action (R180): `ph`, the positions and `OUT` restart, `imm_hold` is left unspecified, a free value
(assumption log entry 3). Whether the run it ends was cut in the middle of a Mov (R181) is recorded (entry 7). -/
def State.applyReset (s : State) : State :=
  { s with
    resetDone := true
    ph := .idle
    immHold := Config.freeByte s.free
    ipos := 0
    opos := 0
    out := []
    cutRun := s.resetDone && s.ph == .pending
    free := s.free + 1 }

/-- The environment's inputs in the present cycle (R25, R27). -/
def State.pin (s : State) : Pins := s.pins.headD s.pinsAfter

/-- The present cycle's entry of the schedule is used up. -/
def State.tick (s : State) : State := { s with pins := s.pins.tail }

/-- The block at the start of a run over a complete instruction sequence (70_reset_and_hazards.md R182, R189): the
state after reset with the build's configuration and the sequence as its input. -/
def State.load (cfg : Config) (input : List PortRecord) : State :=
  { State.reset with cfg := cfg, input := input }

/-- A run is *complete* when `ph` = 0 and every instruction has been accepted (44_sequence_and_steps.md R145). -/
def State.complete (s : State) : Bool := s.ph == .idle && s.ipos == s.input.length

end Sys2Proof.Machine
end

