-- ==== Sys2Proof/Machine/Cycle.lean ====
section
/-! DEFINITION. One clock cycle of a build: the signals (10_state.md R25), which step the cycle takes
(44_sequence_and_steps.md R142, R143; 70_reset_and_hazards.md R180, R184, R188), and placing an instruction where it
is fetched next. -/

namespace Sys2Proof.Machine

/-! ## The signals -/

/-- The port record of `IN[ipos]` (R18, R23), none when every instruction has been accepted. -/
def State.offered (s : State) : Option PortRecord := s.input[s.ipos]?

/-- `in_valid`: the host offers an instruction; there must be one left to offer (assumption log entry 17). -/
def State.inValid (s : State) : Bool := s.pin.offer && s.offered.isSome

/-- `in_ready = (ph == 0) & out_ready & !rst` (R25). -/
def State.inReady (s : State) : Bool := s.ph == .idle && s.pin.outReady && !s.pin.rst

/-- `out_valid = ((ph == 1) | in_valid) & !rst` (R25). -/
def State.outValid (s : State) : Bool := (s.ph == .pending || s.inValid) && !s.pin.rst

/-- `out_byte` (R25): the held byte when `ph` = 1, else the output multiplexer's byte for the record on the ports,
straight from the ROM row of its tag. None where the spec gives no value: what stands on the ports in a cycle with
`in_valid` = 0 is left open (R169 and R184 ask for stable ports only while `in_valid` = 1), and tags 10 to 15 have no
ROM row. DESIGN CHOICE, assumption log entry 18. -/
def State.outByte (s : State) : Option Byte :=
  match s.ph with
  | .pending => some s.immHold
  | .idle =>
    if s.inValid then
      s.offered.bind fun r =>
        (Variant.ofTag r.tag).map fun v =>
          (rom v).firstByte s.cfg.narrowMode (portValue s.cfg.opw r.dest) (portValue s.cfg.opw r.source)
    else none

/-- A transfer on the input channel: "a cycle where its valid and ready are both 1" (R25). -/
def State.inTransfer (s : State) : Bool := s.inValid && s.inReady

/-- A transfer on the output channel (R25). -/
def State.outTransfer (s : State) : Bool := s.outValid && s.pin.outReady

/-! ## What the cycle does -/

/-- The kinds of cycle. At most one kind of step is enabled in a state (R144). -/
inductive Action where
  /-- `rst` = 1: the reset action (R180). -/
  | reset
  /-- No step is enabled: the sink is not ready (R184), nothing is offered, or the run is complete (R145). -/
  | stall
  /-- DRAIN (R143). -/
  | drain
  /-- ACCEPT (R142) of the instruction on the ports. -/
  | accept (i : Instr)
  /-- The model has no meaning for the cycle (R166, R188). -/
  | refuse (r : Refusal)
  deriving DecidableEq, Repr

/-- The kind of the present cycle. `rst` overrides everything (R163, R180); without a ready sink nothing happens
(R184); before the first reset `ph` is unknown (R188); a pending immediate goes before an offered instruction
(R163). -/
def State.action (s : State) : Action :=
  if s.pin.rst then .reset
  else if !s.pin.outReady then .stall
  else if !s.resetDone then .refuse .usedBeforeReset
  else match s.ph with
    | .pending => .drain
    | .idle =>
      if !s.pin.offer then .stall
      else match s.offered with
        | none => .stall
        | some r =>
          match r.instr s.cfg.opw with
          | none => .refuse (.reservedTag r.tag)
          | some i => .accept i

/-! ## Placing an instruction -/

/-- The state with a record as the next one offered, in a cycle in which it is accepted: the block has been reset, is
idle, the schedule starts with a ready cycle, and the record stands at `IN[ipos]`. -/
def State.present (s : State) (r : PortRecord) : State :=
  { s with
    input := s.input.take s.ipos ++ List.replicate (s.ipos - s.input.length) r ++ [r] ++ s.input.drop (s.ipos + 1)
    pins := Pins.ready :: s.pins
    resetDone := true
    ph := .idle }

/-- The port record of an instruction word, numbered as the opcode table numbers its bits. A word the reference
decoder rejects is no Instruction: a record with a tag that names none stands for it (assumption log entry 14). -/
def fetchRecord (nbits w : Nat) : PortRecord :=
  match decodeTableWord nbits w with
  | some i => i.record
  | none => { tag := 15, dest := 0, source := 0 }

end Sys2Proof.Machine
end

