-- ==== Sys2Proof/Machine/Hlt.lean ====
section
/-! DEFINITION. The Hlt instruction, format L (43_hlt.md). -/

namespace Sys2Proof.Machine

/-- `Hlt` (R130): the literal byte goes out; the encoder does not stop (R131). Both operand ports are don't care. -/
def execHlt (s : State) : Host.Outcome State Fault Refusal := s.offer .hlt Config.dontCare Config.dontCare

end Sys2Proof.Machine
end

