-- ==== Sys2Proof/Machine/Mov.lean ====
section
/-! DEFINITION. The Mov instruction, format WI (40_mov.md). -/

namespace Sys2Proof.Machine

/-- `Mov` (R90, R91): the word goes out and the narrowed immediate is held for the DRAIN that follows. -/
def execMov (dest source : Nat) (s : State) : Host.Outcome State Fault Refusal := s.offer .mov dest source

end Sys2Proof.Machine
end

