-- ==== Sys2Proof/Machine/OneRegister.lean ====
section
/-! DEFINITION. The one-register instructions Out and In, format W1 (42_io_one_register.md). The operand port the
instruction does not use carries a free value (10_state.md R13, assumption log entry 11). -/

namespace Sys2Proof.Machine

/-- `Out` (R120): its source register goes into field r0. -/
def execOut (source : Nat) (s : State) : Host.Outcome State Fault Refusal := s.offer .out Config.dontCare source

/-- `In` (R121). -/
def execIn (dest : Nat) (s : State) : Host.Outcome State Fault Refusal := s.offer .inp dest Config.dontCare

end Sys2Proof.Machine
end

