-- ==== Sys2Proof/Machine/TwoRegister.lean ====
section
/-! DEFINITION. The two-register instructions Add, Sub, Mult, Div, Xor, Cmp, format W2 (41_alu_two_register.md).
"For the encoder the six differ in one thing only, the opcode value in the layout ROM." -/

namespace Sys2Proof.Machine

/-- `Add` (R100, R101). -/
def execAdd (dest source : Nat) (s : State) : Host.Outcome State Fault Refusal := s.offer .add dest source

/-- `Sub` (R100, R102). -/
def execSub (dest source : Nat) (s : State) : Host.Outcome State Fault Refusal := s.offer .sub dest source

/-- `Mult` (R100, R103). -/
def execMult (dest source : Nat) (s : State) : Host.Outcome State Fault Refusal := s.offer .mult dest source

/-- `Div` (R100, R104). -/
def execDiv (dest source : Nat) (s : State) : Host.Outcome State Fault Refusal := s.offer .div dest source

/-- `Xor` (R100, R105). -/
def execXor (dest source : Nat) (s : State) : Host.Outcome State Fault Refusal := s.offer .xor dest source

/-- `Cmp` (R100, R106): the encoder treats its first operand like the `dest` of the others. -/
def execCmp (dest source : Nat) (s : State) : Host.Outcome State Fault Refusal := s.offer .cmp dest source

end Sys2Proof.Machine
end

