-- ==== Sys2Proof/Machine/Dispatch.lean ====
section
/-! DEFINITION. What an offered instruction does: one arm per constructor of `Instr`. -/

namespace Sys2Proof.Machine

def exec (i : Instr) (s : State) : Host.Outcome State Fault Refusal :=
  match i with
  | .mov dest source => Sys2Proof.Machine.execMov dest source s
  | .add dest source => Sys2Proof.Machine.execAdd dest source s
  | .sub dest source => Sys2Proof.Machine.execSub dest source s
  | .mult dest source => Sys2Proof.Machine.execMult dest source s
  | .div dest source => Sys2Proof.Machine.execDiv dest source s
  | .xor dest source => Sys2Proof.Machine.execXor dest source s
  | .cmp dest source => Sys2Proof.Machine.execCmp dest source s
  | .out source => Sys2Proof.Machine.execOut source s
  | .inp dest => Sys2Proof.Machine.execIn dest s
  | .hlt => Sys2Proof.Machine.execHlt s

end Sys2Proof.Machine
end

