-- ==== Sys2Proof/Machine/Step.lean ====
section
/-! DEFINITION. One step of the machine: one clock cycle of the schedule. -/

namespace Sys2Proof.Machine

/-- One clock cycle: its schedule entry is used up, and the step it enables is taken. -/
def step (s : State) : Host.Outcome State Fault Refusal :=
  match s.action with
  | .reset => .next s.tick.applyReset
  | .stall => .next s.tick
  | .drain => .next s.tick.drain
  | .accept i => exec i s.tick
  | .refuse r => .refused r

/-- `s` with an instruction word stored where `step` fetches its next instruction: the record at `IN[ipos]`, in a
cycle that accepts it (assumption log entry 14). -/
def State.withFetchWord (s : State) (nbits w : Nat) : State := s.present (fetchRecord nbits w)

end Sys2Proof.Machine
end

