-- ==== Sys2Proof/Machine/FrontEnd.lean ====
section
/-! DEFINITION. The Line Parser and the canonical spelling (30_encoding.md section 7, R70 to R84): the SURROUNDING
SOFTWARE that hands the block its input (00_scope.md R3), at its interface. It is no part of the block and no step
runs it. A source line that exercises a point the source leaves open (R83, 91_not_in_source.md N7) is refused by the
point's name (93_implementation_defined.md U8). -/

namespace Sys2Proof.Machine

/-! ## Results -/

/-- The kinds of validation and dispatch failure (R77), with the token the diagnostic names. R77 lists "malformed
mnemonic" beside "unknown mnemonic" and no rule says which lines are malformed: the model has no cause for it, and a
mnemonic outside the table is always the one of R76. DESIGN CHOICE, assumption log entry 19. -/
inductive Cause where
  /-- A register operand is not one: "must be a register" (R74). -/
  | mustBeRegister (token : List Char)
  /-- A value operand is not one: "must be a number" (R75). -/
  | mustBeNumber (token : List Char)
  /-- An operand with a minus sign before an integer: it "must fail", "with which message is not said" (N7, 7). -/
  | negativeInteger (token : List Char)
  /-- An operand is absent, "due to too few comma-separated tokens" (R74, R75, R77). -/
  | missingOperand
  /-- A mnemonic outside the table: "unknown operand" naming the token (R76). -/
  | unknownOperand (token : List Char)
  deriving DecidableEq, Repr

/-- The words the source quotes from the message of a failure (R74, R75, R76); for an absent operand and a minus sign
it quotes none (N7, 7 and 10). -/
def Cause.fragment : Cause → Option String
  | .mustBeRegister _ => some "must be a register"
  | .mustBeNumber _ => some "must be a number"
  | .negativeInteger _ => none
  | .missingOperand => none
  | .unknownOperand _ => some "unknown operand"

/-- The points of the source syntax the source leaves open (R83, N7, the `FE_*` parameters of
92_eei_decisions.md D20). Assumption log entry 15. -/
inductive OpenPoint where
  /-- More operand tokens than the instruction has (`FE_EXTRA_OPERANDS`). -/
  | extraOperands
  /-- Text after `hlt` (`FE_HLT_TRAILING`). -/
  | hltTrailing
  /-- A tab, or white space other than the space character, between mnemonic and operands (`FE_TAB_SEPARATOR`). -/
  | tabSeparator
  /-- A digit string whose reading is not settled: a leading plus sign, a leading zero, a base mark, underscores
  (`FE_INT_SYNTAX`). -/
  | integerSpelling
  /-- A number beyond those the parser's integer type surely holds (`FE_INT_OVERFLOW`). -/
  | integerOverflow
  /-- A carriage return, or another character that ends a line for some readers (`FE_LINE_TERMINATORS`). -/
  | lineTerminator
  /-- A mnemonic of the table with no operand list (N7, 5). -/
  | noOperandList
  /-- An empty operand token (N7, 6). -/
  | emptyOperand
  /-- `r` alone, or `r` and digits with white space between them, as a register operand (N7, 9). -/
  | bareRegister
  /-- Both operands are wrong: which is reported (N7, 11). -/
  | operandCheckOrder
  deriving DecidableEq, Repr

/-- What validating one operand answers. -/
inductive Operand where
  | value (n : Nat)
  | invalid (c : Cause)
  | notSettled (p : OpenPoint)
  deriving DecidableEq, Repr

/-- What one source line gives. -/
inductive LineResult where
  /-- A comment or blank line (R71). -/
  | skipped
  | instr (i : Instr)
  | invalid (c : Cause)
  | notSettled (p : OpenPoint)
  deriving DecidableEq, Repr

/-- What a diagnostic names: "the source name, the 1-based line counter, and the specific cause" (R77). -/
structure Diagnostic where
  sourceName : List Char
  line : Nat
  cause : Cause
  deriving DecidableEq, Repr

/-- What parsing a source gives: the whole list, or one diagnostic and no list (R77), or no meaning. -/
inductive ParseResult where
  | instrs (is : List Instr)
  | failed (d : Diagnostic)
  | notSettled (p : OpenPoint)
  deriving DecidableEq, Repr

/-! ## Characters and tokens -/

/-- The characters other than the newline at which some readers end a line: vertical tab, form feed, carriage return,
and the next-line, line-separator and paragraph-separator characters. Whether they end a line or are trimmed is not
settled (N7, 1). -/
def isLineEnd (c : Char) : Bool :=
  c.toNat == 0x0B || c.toNat == 0x0C || c.toNat == 0x0D || c.toNat == 0x85 || c.toNat == 0x2028 || c.toNat == 0x2029

/-- The white space that trimming removes (R70 "UTF-8 text", R71): space, tab, and the other space characters of
Unicode, PRESUMED (assumption log entry 15). -/
def isBlank (c : Char) : Bool :=
  c == ' ' || c == '\t' || c.toNat == 0xA0 || c.toNat == 0x1680 || (0x2000 ≤ c.toNat && c.toNat ≤ 0x200A) ||
  c.toNat == 0x202F || c.toNat == 0x205F || c.toNat == 0x3000

/-- "Trim surrounding whitespace" (R71). -/
def trim (cs : List Char) : List Char :=
  ((cs.dropWhile isBlank).reverse.dropWhile isBlank).reverse

/-- Cut at every occurrence of a separator: one token more than there are separators. -/
def splitAll (sep : Char) : List Char → List (List Char)
  | [] => [[]]
  | c :: cs =>
    if c = sep then [] :: splitAll sep cs
    else match splitAll sep cs with
      | [] => [[c]]
      | t :: ts => (c :: t) :: ts

/-- Cut once, at the first occurrence of a separator (R72); none when there is none. -/
def splitFirst (sep : Char) : List Char → Option (List Char × List Char)
  | [] => none
  | c :: cs =>
    if c = sep then some ([], cs)
    else (splitFirst sep cs).map fun p => (c :: p.1, p.2)

/-- A number with one more decimal digit read after it. -/
def pushDigit (acc : Nat) (c : Char) : Nat := 10 * acc + (c.toNat - 48)

/-- The value of a decimal digit string, most significant digit first. -/
def digitsValue (cs : List Char) : Nat := cs.foldl pushDigit 0

/-- How a token reads as a non-negative integer. -/
inductive IntegerToken where
  | number (n : Nat)
  /-- An integer with a minus sign: it is none that is allowed (N7, 7). -/
  | negative
  | notNumber
  | notSettled (p : OpenPoint)
  deriving DecidableEq, Repr

/-- A digit of the base that a base mark names, hexadecimal, octal or binary. -/
def isDigitOf (mark c : Char) : Bool :=
  if mark = 'x' then c.isDigit || ('a'.toNat ≤ c.toNat && c.toNat ≤ 'f'.toNat)
  else if mark = 'o' then c.isDigit && c.toNat < '8'.toNat
  else mark = 'b' && (c == '0' || c == '1')

/-- Digits with underscores between them, before them or after them, at least one digit. -/
def separatedDigits (isDig : Char → Bool) (cs : List Char) : Bool :=
  cs.any isDig && cs.all fun c => isDig c || c == '_'

/-- A base mark and digits of that base, as in `0x10`. -/
def hasBaseMark : List Char → Bool
  | zero :: mark :: ds => zero == '0' && separatedDigits (isDigitOf mark) ds
  | _ => false

/-- Reads a token without a sign. Decimal digits without a leading zero are surely an integer, and accepted as far as
the parser's integer type goes (assumption log entry 16); a leading zero, underscores and a base mark are not settled
(N7, 7); anything else is not numeric. R75 leaves "digit separators" open and N7 names the underscore: that any other
separator, as in `1'000`, is not numeric is a DESIGN CHOICE, assumption log entry 15. -/
def readUnsigned (fe : FrontEnd) (cs : List Char) : IntegerToken :=
  if !cs.isEmpty && cs.all Char.isDigit then
    if cs.head? = some '0' && cs.length ≠ 1 then .notSettled .integerSpelling
    else if digitsValue cs ≤ fe.intMax then .number (digitsValue cs)
    else .notSettled .integerOverflow
  else if separatedDigits Char.isDigit cs || hasBaseMark cs then .notSettled .integerSpelling
  else .notNumber

/-- Reads a token as an integer (R74, R75). A plus sign before an integer is not settled, a minus sign before one is
a failure (N7, 7). -/
def readInteger (fe : FrontEnd) : List Char → IntegerToken
  | [] => .notNumber
  | c :: cs =>
    if c = '+' then
      if readUnsigned fe cs = .notNumber then .notNumber else .notSettled .integerSpelling
    else if c = '-' then
      if readUnsigned fe cs = .notNumber then .notNumber else .negative
    else readUnsigned fe (c :: cs)

/-! ## Operands -/

/-- Register operand validation (R74); none is an absent operand. -/
def registerOperand (fe : FrontEnd) : Option (List Char) → Operand
  | none => .invalid .missingOperand
  | some [] => .notSettled .emptyOperand
  | some (c :: cs) =>
    if c = 'r' then
      if cs.isEmpty then .notSettled .bareRegister
      else match readInteger fe (trim cs) with
        | .number n => if trim cs = cs then .value n else .notSettled .bareRegister
        | .negative => .invalid (.negativeInteger (c :: cs))
        | .notNumber => .invalid (.mustBeRegister (c :: cs))
        | .notSettled p => .notSettled p
    else .invalid (.mustBeRegister (c :: cs))

/-- Value operand validation (R75). -/
def valueOperand (fe : FrontEnd) : Option (List Char) → Operand
  | none => .invalid .missingOperand
  | some [] => .notSettled .emptyOperand
  | some (c :: cs) =>
    if c = 'r' then .invalid (.mustBeNumber (c :: cs))
    else match readInteger fe (c :: cs) with
      | .number n => .value n
      | .negative => .invalid (.negativeInteger (c :: cs))
      | .notNumber => .invalid (.mustBeNumber (c :: cs))
      | .notSettled p => .notSettled p

/-- An instruction of two validated operands; which of two wrong ones is reported is not settled (N7, 11). -/
def twoOperands (v : Variant) : Operand → Operand → LineResult
  | .value d, .value s => .instr (Instr.ofVariant v d s)
  | .notSettled p, _ => .notSettled p
  | _, .notSettled p => .notSettled p
  | .invalid c, .value _ => .invalid c
  | .value _, .invalid c => .invalid c
  | .invalid _, .invalid _ => .notSettled .operandCheckOrder

/-- An instruction of one validated operand. -/
def oneOperand (v : Variant) : Operand → LineResult
  | .value n => .instr (Instr.ofVariant v n n)
  | .notSettled p => .notSettled p
  | .invalid c => .invalid c

/-- The operand tokens of a variant's line shape (R73). -/
def parseOperands (fe : FrontEnd) (v : Variant) (tokens : List (List Char)) : LineResult :=
  match v with
  | .hlt => .notSettled .hltTrailing
  | .out | .inp =>
    if tokens.length > 1 then .notSettled .extraOperands
    else oneOperand v (registerOperand fe tokens[0]?)
  | .mov =>
    if tokens.length > 2 then .notSettled .extraOperands
    else twoOperands v (registerOperand fe tokens[0]?) (valueOperand fe tokens[1]?)
  | .add | .sub | .mult | .div | .xor | .cmp =>
    if tokens.length > 2 then .notSettled .extraOperands
    else twoOperands v (registerOperand fe tokens[0]?) (registerOperand fe tokens[1]?)

/-! ## Lines -/

/-- The mnemonic of a variant (R73). The multiply mnemonic is `mult`. -/
def mnemonicOf : Variant → List Char
  | .mov => ['m', 'o', 'v']
  | .add => ['a', 'd', 'd']
  | .sub => ['s', 'u', 'b']
  | .mult => ['m', 'u', 'l', 't']
  | .div => ['d', 'i', 'v']
  | .xor => ['x', 'o', 'r']
  | .cmp => ['c', 'm', 'p']
  | .out => ['o', 'u', 't']
  | .inp => ['i', 'n']
  | .hlt => ['h', 'l', 't']

/-- The ten variants, in the order of the source's table (R73). -/
def allVariants : List Variant := [.mov, .add, .sub, .mult, .div, .xor, .cmp, .out, .inp, .hlt]

/-- The variant a mnemonic token names (R73). -/
def variantOfMnemonic (token : List Char) : Option Variant :=
  allVariants.find? fun v => mnemonicOf v == token

/-- Dispatch of a mnemonic token and the operand-list token after it, none when the line has no space (R72, R73,
R76). The list is cut on commas and each token trimmed. A mnemonic outside the table fails whatever follows it. -/
def dispatchTokens (fe : FrontEnd) (mnemonic : List Char) (operands : Option (List Char)) : LineResult :=
  if mnemonic.any isLineEnd then .notSettled .lineTerminator
  else if mnemonic.any isBlank then .notSettled .tabSeparator
  else match variantOfMnemonic mnemonic with
    | none => .invalid (.unknownOperand mnemonic)
    | some v =>
      match operands with
      | none => .notSettled .noOperandList
      | some list =>
        if list.any isLineEnd then .notSettled .lineTerminator
        else parseOperands fe v ((splitAll ',' list).map trim)

/-- Dispatch of a trimmed, lower-cased line (R72): `hlt` is an exact match (90_conflicts.md C6), every other line is
split once on the first space. -/
def dispatchLine (fe : FrontEnd) (line : List Char) : LineResult :=
  if line = mnemonicOf .hlt then .instr .hlt
  else match splitFirst ' ' line with
    | none => dispatchTokens fe line none
    | some (mnemonic, operands) => dispatchTokens fe mnemonic (some operands)

/-- One source line (R71): trimmed, skipped when empty or a comment, else lower-cased and dispatched. Only the ASCII
letters are lower-cased: no other letter occurs in a mnemonic or an operand (assumption log entry 15). A comment is
skipped up to the newline, whatever it holds: that a carriage return, or another character at which some readers end
a line (N7, 1), does not end it is a DESIGN CHOICE, assumption log entry 15. -/
def parseLine (fe : FrontEnd) (raw : List Char) : LineResult :=
  match trim raw with
  | [] => .skipped
  | c :: cs => if c = '#' then .skipped else dispatchLine fe ((c :: cs).map Char.toLower)

/-! ## Sources -/

/-- The lines of a source from a point where `done` lines have been parsed successfully: one instruction per line not
skipped, in order; the first failing line ends the parse and is reported as `done + 1` (R77, R78). -/
def parseLines (fe : FrontEnd) (sourceName : List Char) : Nat → List (List Char) → ParseResult
  | _, [] => .instrs []
  | done, line :: lines =>
    match parseLine fe line with
    | .skipped => parseLines fe sourceName done lines
    | .instr i =>
      match parseLines fe sourceName (done + 1) lines with
      | .instrs is => .instrs (i :: is)
      | .failed d => .failed d
      | .notSettled p => .notSettled p
    | .invalid c => .failed { sourceName := sourceName, line := done + 1, cause := c }
    | .notSettled p => .notSettled p

/-- The Line Parser on a full source text, lines ended by the newline character (R70, R77). -/
def parse (fe : FrontEnd) (sourceName text : List Char) : ParseResult :=
  parseLines fe sourceName 0 (splitAll '\n' text)

/-- What the pipeline does with a source (60_exceptions.md R161): the block is started on the complete instruction
sequence, or not started at all. None stands for two things: after a failed parse the block is not started (R161);
where a line exercises an open point it is left open whether the parse fails or the block is started (R83), and that
the model starts no run there is a DESIGN CHOICE, assumption log entry 20. -/
def startRun (fe : FrontEnd) (cfg : Config) (sourceName text : List Char) : Option State :=
  match parse fe sourceName text with
  | .instrs is => some (State.load cfg (is.map Instr.record))
  | .failed _ => none
  | .notSettled _ => none

/-! ## Canonical spelling -/

/-- The decimal digit of a number below 10. -/
def digitChar (n : Nat) : Char := Char.ofNat (48 + n)

/-- Decimal digits, most significant first, before those already written; the fuel bounds how many. -/
def decimalFrom : Nat → Nat → List Char → List Char
  | 0, _, acc => acc
  | fuel + 1, n, acc =>
    if n < 10 then digitChar n :: acc else decimalFrom fuel (n / 10) (digitChar (n % 10) :: acc)

/-- A number in decimal (R81); `n + 1` is fuel enough for `n`. -/
def decimal (n : Nat) : List Char := decimalFrom (n + 1) n []

/-- A register operand, `r` and the decimal index (R81). -/
def registerName (n : Nat) : List Char := 'r' :: decimal n

/-- The canonical spelling of an instruction (R81): lower-case mnemonic, one space, operands separated by a comma and
a space. -/
def spell : Instr → List Char
  | .mov d s => mnemonicOf .mov ++ ' ' :: registerName d ++ ',' :: ' ' :: decimal s
  | .add d s => mnemonicOf .add ++ ' ' :: registerName d ++ ',' :: ' ' :: registerName s
  | .sub d s => mnemonicOf .sub ++ ' ' :: registerName d ++ ',' :: ' ' :: registerName s
  | .mult d s => mnemonicOf .mult ++ ' ' :: registerName d ++ ',' :: ' ' :: registerName s
  | .div d s => mnemonicOf .div ++ ' ' :: registerName d ++ ',' :: ' ' :: registerName s
  | .xor d s => mnemonicOf .xor ++ ' ' :: registerName d ++ ',' :: ' ' :: registerName s
  | .cmp d s => mnemonicOf .cmp ++ ' ' :: registerName d ++ ',' :: ' ' :: registerName s
  | .out s => mnemonicOf .out ++ ' ' :: registerName s
  | .inp d => mnemonicOf .inp ++ ' ' :: registerName d
  | .hlt => mnemonicOf .hlt

/-- A source text of the instructions in their canonical spelling, each line ended by a newline. -/
def spellProgram (is : List Instr) : List Char := (is.map fun i => spell i ++ ['\n']).flatten

end Sys2Proof.Machine
end

