-- ==== Sys2Proof/Safety.lean ====
section
/-! DEFINITION. What counts as a good state and a good run, in the terms the statements use: the shape of the output
stream, its agreement with the reference function (44_sequence_and_steps.md R144), the launch premises
(70_reset_and_hazards.md R189) and the host's duties (60_exceptions.md R169). -/

namespace Sys2Proof.Machine

/-! ## The spec's formulas -/

/-- The encoded word of the instruction rules (R90, R100, R120, R121), the spec's own formula for each mode:
`16 op + 4 (a mod 4) + (b mod 4)` under `FIELD`, `trunc_8((op << 4) | (a << 2) | b)` under `BYTE`. -/
def wordOf (m : NarrowMode) (op a b : Nat) : Word :=
  match m with
  | .field => BitVec.ofNat 8 (16 * op + 4 * (a % 4) + b % 4)
  | .byte => BitVec.ofNat 8 (16 * op ||| 4 * a ||| b)

/-- The state after a one-byte instruction (R100, R120, R121, R130): `OUT` has grown by the byte, `opos` and `ipos`
by one, and nothing else has changed. -/
def State.appended (s : State) (w : Byte) : State :=
  { s with out := s.out.write s.opos w, opos := s.opos + 1, ipos := s.ipos + 1 }

/-- The number of Movs of a sequence, the M of R146. -/
def movCount : List Instr → Nat
  | [] => 0
  | .mov _ _ :: rest => movCount rest + 1
  | _ :: rest => movCount rest

/-- The first bytes the encoder can emit under `FIELD` (30_encoding.md R63). -/
def firstByteRange (n : Nat) : Bool :=
  n == 0x10 || n == 0x14 || n == 0x18 || n == 0x1C || (0x20 ≤ n && n ≤ 0x5F) || (0x70 ≤ n && n ≤ 0x8F) ||
  n == 0xD0 || n == 0xD4 || n == 0xD8 || n == 0xDC || n == 0xE0 || n == 0xE4 || n == 0xE8 || n == 0xEC || n == 0xFF

/-! ## Good states and good runs -/

/-- The shape of a run's state: `OUT` holds exactly the offsets 0 to `opos` - 1, in order (20_memory.md R30, R33;
10_state.md R18), and no more instructions have been accepted than `IN` has (R35). -/
abbrev State.Inv (s : State) : Prop :=
  s.out.map Prod.fst = List.range s.opos ∧ s.ipos ≤ s.input.length

/-- The instructions accepted so far, `IN[0 .. ipos-1]` as the ports presented them. -/
def State.acceptedInstrs (s : State) : List Instr :=
  (s.input.take s.ipos).filterMap (PortRecord.instr s.cfg.opw)

/-- Agreement of the steps with the reference function (R144). With `ph` = 0, `OUT` is `EncSeq` of what has been
accepted; with `ph` = 1 the last accepted instruction is a Mov, its first byte is the last byte of `OUT`, and its
narrowed immediate is held. Every accepted record named an Instruction. -/
def State.Agrees (s : State) : Prop :=
  s.acceptedInstrs.length = s.ipos ∧
  match s.ph with
  | .idle => s.out.bytes = encodeSeq s.cfg.narrowMode s.acceptedInstrs
  | .pending => ∃ before d v, s.acceptedInstrs = before ++ [.mov d v] ∧
      s.out.bytes = encodeSeq s.cfg.narrowMode before ++ [pack s.cfg.narrowMode 1 d 0] ∧ s.immHold = imm8 v

/-- The launch premises of R189 that speak of the state a run starts from: `reset_done`, `nothing_pending`,
`out_empty`, and from `no_refusal` and `input_fixed` that every record of `IN` names an Instruction; the build is
legal (R4). The premise that speaks of the run is `State.NotCut`. -/
abbrev State.Launch (s : State) : Prop :=
  s.resetDone = true ∧ s.ph = .idle ∧ s.out = [] ∧ s.ipos = 0 ∧ s.opos = 0 ∧
  (∀ r ∈ s.input, (Variant.ofTag r.tag).isSome) ∧ s.cfg.wf = true

/-- The premise of R189 that speaks of the run, the second half of `no_refusal`: in none of the next `k` cycles is the
block reset while `ph` = 1 (R181). -/
def State.NotCut (k : Nat) (s : State) : Prop :=
  ∀ j < k, ∀ u, Host.Core.run Sys2Proof.core j s = .next u → u.pin.rst = true → u.ph = .idle

/-- All the premises of R189 for a run of `k` cycles. That `IN` and the configuration do not change is a property of
the step and no premise. -/
def State.LaunchRun (k : Nat) (s : State) : Prop := s.Launch ∧ s.NotCut k

/-- A cycle in which the environment keeps both its promises of R186: no reset, the host offers, the sink is ready. -/
def Pins.moves (p : Pins) : Bool := p.offer && p.outReady && !p.rst

/-- What the host must do in the present cycle (R169): not reset while `ph` = 1 (R181), not drive a tag of 10 to 15
(R166), and reset the block before using it (R188). -/
abbrev State.HostDuty (s : State) : Prop :=
  (s.pin.rst = true → s.ph = .idle) ∧
  (s.pin.offer = true → ∀ r ∈ s.offered, (Variant.ofTag r.tag).isSome) ∧
  (s.resetDone = true ∨ s.pin.rst = true)

end Sys2Proof.Machine
end

