-- ==== Sys2Proof/Certificates/Slice0/Obligations.lean ====
section
/-! DEFINITION. The statements about RX8-ENC for the provers. -/

open Sys2Proof Sys2Proof.Machine

/-! ## Packing and encoding -/

/-- R52: under `FIELD` each value is masked to its own field, so the OR is a sum and no operand value changes the
opcode field or the other operand's field. -/
def Obligations.PackFieldMasksEachValue : Prop :=
  ∀ op a b : Nat,
    packField op a b = BitVec.ofNat 8 ((op % 16) <<< 4 ||| (a % 4) <<< 2 ||| b % 4) ∧
    (packField op a b).toNat = 16 * (op % 16) + 4 * (a % 4) + b % 4 ∧
    split (packField op a b) = (op % 16, a % 4, b % 4)

/-- R53: under `BYTE` the bits that do not fit their field are ORed into the neighbouring fields, bit by bit. -/
def Obligations.PackByteOrsUnmaskedValues : Prop :=
  ∀ op a b : Nat,
    packByte op a b = BitVec.ofNat 8 (((op % 256) <<< 4 ||| (a % 256) <<< 2 ||| b % 256) % 256) ∧
    packByte op a b = BitVec.ofNat 8 ((op <<< 4 ||| a <<< 2 ||| b) % 256) ∧
    split (packByte op a b) =
      (slice op 3 0 ||| slice a 5 2 ||| slice b 7 4, slice a 1 0 ||| slice b 3 2, slice b 1 0) ∧
    packByte op a b = packByte (op % 16) (a % 64) (b % 256)

/-- R54, which the spec marks as derived from R52 and R53: in range the two modes agree; out of range exactly where
the spilled bits are already set or are zero. -/
def Obligations.NarrowModesAgree : Prop :=
  (∀ op a b : Nat, op ≤ 15 → a ≤ 3 → b ≤ 3 → packField op a b = packByte op a b) ∧
  (∀ i : Instr, i.inRange = true → encode .field i = encode .byte i) ∧
  (∀ op a b : Nat, packField op a b = packByte op a b ↔
    (slice op 3 0 ||| slice a 5 2 ||| slice b 7 4 = slice op 3 0 ∧ slice a 1 0 ||| slice b 3 2 = slice a 1 0)) ∧
  packField 1 4 0 = packByte 1 4 0 ∧ (packField 1 8 0, packByte 1 8 0) = (0x10, 0x30) ∧
  (∀ op : Nat, packField op 64 0 = packByte op 64 0 ∧ packField op 0 256 = packByte op 0 256 ∧
    (split (packField op 0 4)).2.1 = 0 ∧ (split (packByte op 0 4)).2.1 = 1)

/-- R55, which the spec marks as derived: the operand bits the output depends on; an operand port of 8 or more bits is
not observable. -/
def Obligations.EncodingReadsLowOperandBits : Prop :=
  (∀ op a b a' b' : Nat, a % 4 = a' % 4 → b % 4 = b' % 4 → packField op a b = packField op a' b') ∧
  (∀ op a b a' b' : Nat, a % 64 = a' % 64 → b % 256 = b' % 256 → packByte op a b = packByte op a' b') ∧
  (∀ s s' : Nat, s % 256 = s' % 256 → imm8 s = imm8 s') ∧
  (∀ (m : NarrowMode) (i : Instr) (opw : Nat), 8 ≤ opw → encode m (i.onPorts opw) = encode m i)

/-- R61: `Split` and `Pack_FIELD` are inverse to each other. -/
def Obligations.SplitInvertsPackField : Prop :=
  (∀ w : Word, split w = (w.toNat / 16, w.toNat / 4 % 4, w.toNat % 4)) ∧
  (∀ op a b : Nat, op ≤ 15 → a ≤ 3 → b ≤ 3 → split (packField op a b) = (op, a, b)) ∧
  (∀ (w : Word) (o a b : Nat), split w = (o, a, b) → packField o a b = w)

/-- R58: the second byte of a Mov is the immediate modulo 256, in both modes and for every destination. -/
def Obligations.MovImmediateIsSourceModulo256 : Prop :=
  ∀ (m : NarrowMode) (d s : Nat), ∃ w, encode m (.mov d s) = [w, imm8 s] ∧ (imm8 s).toNat = s % 256

/-- R140: `Enc` through the layout ROM and the multiplexers is `Enc` as the table writes it. -/
def Obligations.EncodeIsRomPacking : Prop :=
  ∀ (m : NarrowMode) (v : Variant) (d s : Nat),
    encode m (Instr.ofVariant v d s) =
      (rom v).firstByte m d s :: (if (rom v).tb then [imm8 s] else [])

/-- R12, R15: which tag names which variant, that the tags 10 to 15 name none, and the row of the layout ROM each of the
tags 0 to 9 addresses, as bits. -/
def Obligations.RomRowsAsBits : Prop :=
  ([0, 1, 2, 3, 4, 5, 6, 7, 8, 9] : List (BitVec 4)).map Variant.ofTag =
    [some .mov, some .add, some .sub, some .mult, some .div, some .xor, some .cmp, some .out, some .inp, some .hlt] ∧
  (∀ t : BitVec 4, 10 ≤ t.toNat → Variant.ofTag t = none) ∧
  ([0, 1, 2, 3, 4, 5, 6, 7, 8, 9] : List (BitVec 4)).map (fun t => (Variant.ofTag t).map fun v => (rom v).bits) =
    [some 0x111, some 0x092, some 0x093, some 0x094, some 0x095, some 0x097, some 0x098, some 0x02D, some 0x01E,
      some 0x200]

/-- R62 (the 15 for Hlt is the spec's own inference): decoding the stream sequentially reconstructs the original
opcode sequence, under `FIELD` for every sequence, under `BYTE` for in-range ones. -/
def Obligations.DecOpcodesRecoversOpcodes : Prop :=
  (∀ is : List Instr, decOpcodes (encodeSeq .field is) = is.map Instr.opc) ∧
  (∀ is : List Instr, (∀ i ∈ is, i.inRange = true) → decOpcodes (encodeSeq .byte is) = is.map Instr.opc)

/-- R66, which the spec marks as derived: the reference decoder reads an encoded sequence back as its normalisation,
exactly on well-formed instructions; and whatever it accepts encodes back to the same bytes. -/
def Obligations.DecStreamInvertsEncodeSeq : Prop :=
  (∀ is : List Instr, decStream (encodeSeq .field is) = .instrs (is.map Instr.norm)) ∧
  (∀ is : List Instr, (∀ i ∈ is, i.wf = true) → decStream (encodeSeq .field is) = .instrs is) ∧
  (∀ (bs : List Byte) (is : List Instr), decStream bs = .instrs is → encodeSeq .field is = bs)

/-- For every well-formed instruction, in both modes and whatever follows it in the stream, decoding its encoding
gives it back and leaves what follows. -/
def Obligations.DecodeEncodeRoundTrip : Prop :=
  ∀ (m : NarrowMode) (i : Instr) (rest : List Byte), i.wf = true → decode (encode m i ++ rest) = .instr i rest

/-- R60: the length of an instruction can be told from bits 7:4 of its first byte, under `FIELD` always and under
`BYTE` for in-range instructions. -/
def Obligations.LengthIsToldByFirstByte : Prop :=
  ∀ (m : NarrowMode) (i : Instr), (m = .field ∨ i.inRange = true) →
    ∃ w tail, encode m i = w :: tail ∧ instrLength w = (encode m i).length

/-- R63, which the spec marks as derived: the bytes that can stand at an instruction boundary, under `FIELD` exactly
109 values, all others rejected by the reference decoder; and what spilled bits can produce under `BYTE`. -/
def Obligations.BoundaryBytesAreExactlyThese : Prop :=
  (∀ w : Word, (∃ i rest, encode .field i = w :: rest) ↔ firstByteRange w.toNat = true) ∧
  ((List.range 256).filter firstByteRange).length = 109 ∧
  (∀ (w : Word) (rest : List Byte), firstByteRange w.toNat = false → ∃ e, decode (w :: rest) = .rejected e) ∧
  (∀ (op : Nat) (w : Word), op ∈ [2, 3, 4, 5, 7, 8] →
    ((∃ d s, packByte op d s = w) ↔ w &&& BitVec.ofNat 8 (16 * op) = BitVec.ofNat 8 (16 * op))) ∧
  (∀ (op : Nat) (w : Word), op ∈ [1, 13, 14] →
    ((∃ v, packByte op v 0 = w) ↔ (w &&& BitVec.ofNat 8 (16 * op) = BitVec.ofNat 8 (16 * op) ∧ w.toNat % 4 = 0)))

/-- R146: N instructions of which M are Movs encode to N + M bytes. -/
def Obligations.ByteCountIsInstructionsPlusMovs : Prop :=
  ∀ (m : NarrowMode) (is : List Instr), (encodeSeq m is).length = is.length + movCount is

/-- R30, R141, R147: the bytes of an instruction stand at the offset given by the total length of the encodings
before it, and depend on that instruction alone. -/
def Obligations.BytesStandAtTheirOffset : Prop :=
  ∀ (m : NarrowMode) (before after : List Instr) (i : Instr),
    encodeSeq m (before ++ i :: after) = encodeSeq m before ++ (encode m i ++ encodeSeq m after) ∧
    ((encodeSeq m (before ++ i :: after)).drop (encodeSeq m before).length).take i.size = encode m i

/-- The words of the spec's worked examples decode to their instructions. -/
def Obligations.WorkedExampleWordsDecode : Prop :=
  decode [0x14, 0x07] = .instr (.mov 1 7) [] ∧ decode [0x21] = .instr (.add 0 1) [] ∧
  decode [0x3D] = .instr (.sub 3 1) [] ∧ decode [0x4B] = .instr (.mult 2 3) [] ∧
  decode [0x54] = .instr (.div 1 0) [] ∧ decode [0x7C] = .instr (.xor 3 0) [] ∧
  decode [0x83] = .instr (.cmp 0 3) [] ∧ decode [0xD8] = .instr (.out 2) [] ∧
  decode [0xEC] = .instr (.inp 3) [] ∧ decode [0xFF] = .instr .hlt []

/-! ## The instructions -/

/-- R90: with `ph` = 0 a Mov completes its ACCEPT, holding the narrowed immediate; the step after it, whatever is
offered, emits the immediate; together `OUT` grows by exactly the two bytes, `opos` by 2 and `ipos` by 1. Nothing
else changes but the hold register. -/
def Obligations.MovEmitsWordThenImmediate : Prop :=
  ∀ (s : State) (d v : Nat), s.ph = .idle →
    ∃ t, exec (.mov d v) s = .next t ∧
      t = { s with
        out := s.out.write s.opos (wordOf s.cfg.narrowMode 1 d 0)
        opos := s.opos + 1, ipos := s.ipos + 1, immHold := BitVec.ofNat 8 (v % 256), ph := .pending } ∧
      ∀ i, exec i t = .next { s with
        out := (s.out.write s.opos (wordOf s.cfg.narrowMode 1 d 0)).write (s.opos + 1) (BitVec.ofNat 8 (v % 256))
        opos := s.opos + 2, ipos := s.ipos + 1, immHold := BitVec.ofNat 8 (v % 256) }

/-- R100: with `ph` = 0 each of Add, Sub, Mult, Div, Xor, Cmp completes for every operand pair, appending its one
word, with the opcodes 2, 3, 4, 5, 7, 8; nothing else changes. -/
def Obligations.TwoRegisterInstructionsAppendOneWord : Prop :=
  ∀ (s : State) (d r : Nat), s.ph = .idle →
    exec (.add d r) s = .next (s.appended (wordOf s.cfg.narrowMode 2 d r)) ∧
    exec (.sub d r) s = .next (s.appended (wordOf s.cfg.narrowMode 3 d r)) ∧
    exec (.mult d r) s = .next (s.appended (wordOf s.cfg.narrowMode 4 d r)) ∧
    exec (.div d r) s = .next (s.appended (wordOf s.cfg.narrowMode 5 d r)) ∧
    exec (.xor d r) s = .next (s.appended (wordOf s.cfg.narrowMode 7 d r)) ∧
    exec (.cmp d r) s = .next (s.appended (wordOf s.cfg.narrowMode 8 d r))

/-- R120, R121: with `ph` = 0 Out and In complete for every operand, appending one word with their register in field
r0 and zero in field r1; nothing else changes. The block's first byte for them does not depend on the unused port. -/
def Obligations.OneRegisterInstructionsAppendOneWord : Prop :=
  ∀ (s : State) (n : Nat), s.ph = .idle →
    exec (.out n) s = .next (s.appended (wordOf s.cfg.narrowMode 13 n 0)) ∧
    exec (.inp n) s = .next (s.appended (wordOf s.cfg.narrowMode 14 n 0)) ∧
    (split (wordOf s.cfg.narrowMode 13 n 0)).2.2 = 0 ∧ (split (wordOf s.cfg.narrowMode 14 n 0)).2.2 = 0 ∧
    ∀ unused, (rom .out).firstByte s.cfg.narrowMode unused n = wordOf s.cfg.narrowMode 13 n 0 ∧
      (rom .inp).firstByte s.cfg.narrowMode n unused = wordOf s.cfg.narrowMode 14 n 0

/-- R130, R131: with `ph` = 0 Hlt completes, appending the literal `0xFF` in both modes and for any values on the
operand ports; nothing else changes, and the block does not stop: the next instruction completes too. Under `FIELD`
no other instruction starts with that byte, under `BYTE` others can; by the field layout it reads as opcode 15. -/
def Obligations.HltAppendsLiteralAndGoesOn : Prop :=
  ∀ s : State, s.ph = .idle →
    exec .hlt s = .next (s.appended 0xFF) ∧
    (∀ i, ∃ t, exec i (s.appended 0xFF) = .next t ∧ t.ipos = s.ipos + 2) ∧
    (∀ (m : NarrowMode) (d r : Nat), (rom .hlt).firstByte m d r = 0xFF ∧ encode m .hlt = [0xFF]) ∧
    (∀ i, (encode .field i).head? = some 0xFF ↔ i = .hlt) ∧ encode .byte (.add 0 255) = [0xFF] ∧
    split 0xFF = (15, 3, 3)

/-- The out-of-range worked examples of R101 to R106, in both modes, and those of R120 and R121. -/
def Obligations.OutOfRangeWorkedExamples : Prop :=
  (encode .field (.add 5 6), encode .byte (.add 5 6)) = ([0x26], [0x36]) ∧
  (encode .field (.sub 0 7), encode .byte (.sub 0 7)) = ([0x33], [0x37]) ∧
  (encode .field (.mult 6 1), encode .byte (.mult 6 1)) = ([0x49], [0x59]) ∧
  (encode .field (.div 0 8), encode .byte (.div 0 8)) = ([0x50], [0x58]) ∧
  (encode .field (.xor 1 15), encode .byte (.xor 1 15)) = ([0x77], [0x7F]) ∧
  (encode .field (.cmp 4 4), encode .byte (.cmp 4 4)) = ([0x80], [0x94]) ∧
  (encode .field (.out 9), encode .byte (.out 9)) = ([0xD4], [0xF4]) ∧
  (encode .field (.inp 5), encode .byte (.inp 5)) = ([0xE4], [0xF4]) ∧
  (encode .field (.mov 8 9), encode .byte (.mov 8 9)) = ([0x10, 0x09], [0x30, 0x09])

/-- R143, R163, R183: with `ph` = 1 no instruction is taken, whichever is offered; the step emits the held byte and
changes nothing else but `ph`. -/
def Obligations.PendingImmediateGoesBeforeAnyInstruction : Prop :=
  ∀ (i : Instr) (s : State), s.ph = .pending →
    exec i s = .next { s with out := s.out.write s.opos s.immHold, opos := s.opos + 1, ph := .idle }

/-- The frame of every instruction: one byte is stored, at `opos`; every other offset of `OUT` reads as before; the
configuration, the input, the schedule and the model's marks are unchanged; `ipos` moves only when the instruction is
taken, and `imm_hold` and `ph` = 1 are written only by a Mov that is taken. -/
def Obligations.InstructionFrame : Prop :=
  ∀ (i : Instr) (s t : State), exec i s = .next t →
    t.cfg = s.cfg ∧ t.input = s.input ∧ t.pins = s.pins ∧ t.pinsAfter = s.pinsAfter ∧ t.resetDone = s.resetDone ∧
    t.cutRun = s.cutRun ∧ t.free = s.free ∧ t.opos = s.opos + 1 ∧
    (∀ a, a ≠ s.opos → t.out.read a = s.out.read a) ∧
    (s.ph = .pending → t.out.read s.opos = some s.immHold ∧ t.ipos = s.ipos ∧ t.immHold = s.immHold ∧ t.ph = .idle) ∧
    (s.ph = .idle → t.out.read s.opos = (encode s.cfg.narrowMode i).head? ∧ t.ipos = s.ipos + 1 ∧
      (i.variant ≠ .mov → t.immHold = s.immHold ∧ t.ph = .idle))

/-! ## The clock cycle -/

/-- When the record at `IN[ipos]` presents an instruction and the cycle accepts it (R142: reset done, `rst` = 0,
`ph` = 0, offered, sink ready), the step is `exec` of it, at the state whose schedule entry is used up. -/
def Obligations.StepRunsTheOfferedInstruction : Prop :=
  ∀ (s : State) (r : PortRecord) (i : Instr),
    s.resetDone = true → s.pin.rst = false → s.pin.outReady = true → s.pin.offer = true → s.ph = .idle →
    s.offered = some r → r.instr s.cfg.opw = some i →
    step s = exec i { s with pins := s.pins.tail }

/-- An instruction word placed for the next fetch is what the next step runs, in every legal build. -/
def Obligations.PlacedWordIsRunNext : Prop :=
  ∀ (s : State) (nbits w : Nat) (i : Instr), s.cfg.wf = true → decodeTableWord nbits w = some i →
    step (s.withFetchWord nbits w) = exec i { s.withFetchWord nbits w with pins := s.pins }

/-- R142: ACCEPT as the ports and the layout ROM determine it, its refusal of a tag that names no variant, and that
it is enabled only with `ph` = 0, an instruction left in `IN` and both handshakes complete. -/
def Obligations.AcceptCycleFollowsTheRomRow : Prop :=
  (∀ (s : State) (r : PortRecord),
    s.resetDone = true → s.pin.rst = false → s.pin.outReady = true → s.pin.offer = true → s.ph = .idle →
    s.offered = some r →
    (∀ v, Variant.ofTag r.tag = some v →
      let dest := r.dest % 2 ^ s.cfg.opw
      let source := r.source % 2 ^ s.cfg.opw
      let w := pack s.cfg.narrowMode (rom v).op.toNat ((rom v).s0.mux dest source) ((rom v).s1.mux dest source)
      step s = .next { s with
        pins := s.pins.tail
        out := s.out.write s.opos (if (rom v).lit then 0xFF else w)
        opos := s.opos + 1
        ipos := s.ipos + 1
        immHold := if (rom v).tb then BitVec.ofNat 8 (source % 256) else s.immHold
        ph := if (rom v).tb then .pending else .idle }) ∧
    (10 ≤ r.tag.toNat → step s = .refused (.reservedTag r.tag)) ∧
    (r.tag.toNat ≤ 9 → (Variant.ofTag r.tag).isSome)) ∧
  (∀ (s : State) (i : Instr), s.action = .accept i →
    s.ph = .idle ∧ s.ipos < s.input.length ∧ s.inTransfer = true ∧ s.outTransfer = true)

/-- R143: with `ph` = 1 a cycle with a ready sink is the DRAIN, whatever the host offers; no ACCEPT is enabled and
`in_ready` is 0; and after the ACCEPT of a Mov every cycle up to the DRAIN is a stall or a reset. -/
def Obligations.DrainCycleEmitsTheHeldByte : Prop :=
  ∀ s : State, s.ph = .pending →
    (∀ i, s.action ≠ .accept i) ∧ s.inReady = false ∧
    (s.pin.rst = false → s.outValid = true) ∧
    (s.resetDone = true → s.pin.rst = false → s.pin.outReady = true →
      step s = .next { s with
        pins := s.pins.tail, out := s.out.write s.opos s.immHold, opos := s.opos + 1, ph := .idle }) ∧
    (s.resetDone = true → s.action = .drain ∨ s.action = .stall ∨ s.action = .reset)

/-- R180: a reset cycle takes no step and gives no handshake, whatever the other inputs are; after it `ph`, the
positions and `OUT` are those of reset and the block has been reset; the configuration is unchanged.
Nothing is said of `imm_hold`. -/
def Obligations.ResetCycleRestartsTheBlock : Prop :=
  ∀ s : State, s.pin.rst = true →
    s.inReady = false ∧ s.outValid = false ∧
    ∃ t, step s = .next t ∧ t.ph = .idle ∧ t.ipos = 0 ∧ t.opos = 0 ∧ t.out = [] ∧ t.resetDone = true ∧
      t.cfg = s.cfg ∧ t.pins = s.pins.tail

/-- The model's own mark (assumption log entry 7): a reset cycle records whether it cut a Mov in two (R181), and no
other cycle changes the mark. -/
def Obligations.ResetRecordsACutRun : Prop :=
  ∀ s t : State, step s = .next t →
    (s.pin.rst = true → t.cutRun = (s.resetDone && s.ph == .pending)) ∧
    (s.pin.rst = false → t.cutRun = s.cutRun)

/-- R181: under `FIELD`, what a run cut in the middle of a Mov has emitted is the encoding of no sequence. (Under
`BYTE` a destination of 8 or more can make the lone word read as another instruction.) -/
def Obligations.CutMovIsNoStream : Prop :=
  ∀ (is js : List Instr) (d : Nat), encodeSeq .field is ++ [pack .field 1 d 0] ≠ encodeSeq .field js

/-- R184, R168: with the sink not ready, or nothing offered while no immediate is pending, no step is enabled: the
cycle changes nothing but the schedule. -/
def Obligations.StalledCycleChangesNothing : Prop :=
  ∀ s : State, s.pin.rst = false →
    (s.pin.outReady = false → step s = .next { s with pins := s.pins.tail } ∧ s.inReady = false) ∧
    (s.resetDone = true → s.ph = .idle → s.inValid = false → step s = .next { s with pins := s.pins.tail })

/-- R26: the state after reset, nothing said of `imm_hold`, and the constant ROM; in that state the signals follow
R25 from `ph` = 0, so `out_valid` is `in_valid`. -/
def Obligations.ResetStateValues : Prop :=
  State.reset.ph.bit = 0 ∧ State.reset.ipos = 0 ∧ State.reset.opos = 0 ∧ State.reset.out = [] ∧
  ([0, 1, 2, 3, 4, 5, 6, 7, 8, 9] : List (BitVec 4)).map (fun t => (Variant.ofTag t).map fun v => (rom v).bits) =
    [some 0x111, some 0x092, some 0x093, some 0x094, some 0x095, some 0x097, some 0x098, some 0x02D, some 0x01E,
      some 0x200] ∧
  ∀ (input : List PortRecord) (p : Pins) (rest : List Pins), p.rst = false →
    let s := { State.reset with input := input, pins := p :: rest }
    s.outValid = s.inValid ∧ s.inReady = p.outReady ∧
    ∀ (r : PortRecord) (v : Variant), p.offer = true → input.head? = some r → Variant.ofTag r.tag = some v →
      s.outByte = some ((rom v).firstByte s.cfg.narrowMode (r.dest % 2 ^ s.cfg.opw) (r.source % 2 ^ s.cfg.opw))

/-- R25: with `ph` = 0 an input transfer and an output transfer always happen in the same cycle, with `ph` = 1 only an
output transfer; `out_valid` does not depend on `out_ready`, nor `in_ready` on `in_valid`. -/
def Obligations.TransfersHappenTogether : Prop :=
  (∀ s : State, s.ph = .idle → s.inTransfer = s.outTransfer) ∧
  (∀ s : State, s.ph = .pending → s.inTransfer = false) ∧
  (∀ (s : State) (p : Pins) (rest : List Pins) (b : Bool),
    State.outValid { s with pins := { p with outReady := b } :: rest } = State.outValid { s with pins := p :: rest } ∧
    State.inReady { s with pins := { p with offer := b } :: rest } = State.inReady { s with pins := p :: rest })

/-- R25, R33: in a cycle that completes an output transfer the byte appended to `OUT` is the one on `out_byte`; in any
other cycle but reset `OUT` does not change. -/
def Obligations.OutByteIsWhatIsAppended : Prop :=
  ∀ s t : State, step s = .next t → s.pin.rst = false →
    (s.outTransfer = true → ∃ b, s.outByte = some b ∧ t.out = s.out.write s.opos b ∧ t.opos = s.opos + 1) ∧
    (s.outTransfer = false → t.out = s.out ∧ t.opos = s.opos)

/-- R18: `ipos` counts the input transfers and `opos` the output transfers; neither goes back, skips or wraps. -/
def Obligations.PositionsCountTransfers : Prop :=
  ∀ s t : State, step s = .next t → s.pin.rst = false →
    t.ipos = s.ipos + (if s.inTransfer then 1 else 0) ∧ t.opos = s.opos + (if s.outTransfer then 1 else 0)

/-- R13, which the spec marks as derived: the step and `out_byte` do not depend on the value on an operand port the
offered variant does not use (`dest` for Out, tag 7; `source` for In, tag 8; both for Hlt, tag 9). -/
def Obligations.UnusedPortsAreNotObserved : Prop :=
  ∀ (s t : State) (r r' : PortRecord), s.offered = some r → r'.tag = r.tag →
    (r.tag ≠ 7 → r.tag ≠ 9 → r'.dest = r.dest) → (r.tag ≠ 8 → r.tag ≠ 9 → r'.source = r.source) →
    State.outByte { s with input := s.input.set s.ipos r' } = s.outByte ∧
    (step s = .next t → step { s with input := s.input.set s.ipos r' } =
      .next { t with input := s.input.set s.ipos r' })

/-- R17, "never read while unspecified" by the spec's own inference: `imm_hold` is not read before it is written: from
a state with `ph` = 0 its value changes nothing in the next state but itself, and nothing at all once the step has
made `ph` 1. -/
def Obligations.HoldRegisterIsNotReadBeforeWritten : Prop :=
  ∀ (s t : State) (v : Byte), s.ph = .idle → step s = .next t →
    ∃ u, step { s with immHold := v } = .next u ∧ u = { t with immHold := u.immHold } ∧ (t.ph = .pending → u = t)

/-- R160, R152: while the host keeps its duties (R169) every step has a next state; and a step is refused for two
reasons only, use before the first reset and a tag of 10 to 15. -/
def Obligations.StepRefusesOnlyBrokenDuties : Prop :=
  (∀ s : State, s.HostDuty → ∃ t, step s = .next t) ∧
  (∀ (s : State) (x : Refusal), step s = .refused x →
    (x = .usedBeforeReset ∧ s.resetDone = false ∧ s.pin.rst = false ∧ s.pin.outReady = true) ∨
    (∃ r, s.offered = some r ∧ x = .reservedTag r.tag ∧ 10 ≤ r.tag.toNat))

/-! ## Invariants and runs -/

/-- Every step keeps the canonical form of `OUT`, from every state that has it. -/
def Obligations.StepKeepsCanonicalOutput : Prop :=
  ∀ s t : State, s.out.wf → step s = .next t → t.out.wf

/-- R30, R33, R35: every step keeps `OUT` contiguous from offset 0 with exactly `opos` bytes, and `ipos` within
`IN`. -/
def Obligations.StepKeepsStreamShape : Prop :=
  ∀ s t : State, s.Inv → step s = .next t → t.Inv

/-- The shape holds right after reset and at every launch. -/
def Obligations.LaunchHasStreamShape : Prop :=
  State.reset.Inv ∧ State.reset.Launch ∧ ∀ s : State, s.Launch → s.Inv ∧ s.Agrees

/-- R34: `OUT` is append-only: a step other than reset keeps every byte written and adds at most one after them. -/
def Obligations.OutputIsAppendOnly : Prop :=
  ∀ s t : State, s.Inv → s.pin.rst = false → step s = .next t →
    ∃ new, t.out = s.out ++ new ∧ new.length ≤ 1 ∧ t.opos = s.opos + new.length

/-- R27, R35: no step changes the input sequence or the configuration, nor what the schedule says of later cycles.
That a reset cycle, which starts a new run, keeps the input too is the model's choice, assumption log entry 6: R35 and
R189 fix it only during a run. -/
def Obligations.InputAndConfigAreFixed : Prop :=
  ∀ s t : State, step s = .next t →
    t.input = s.input ∧ t.cfg = s.cfg ∧ t.pins = s.pins.tail ∧ t.pinsAfter = s.pinsAfter

/-- R144, which the spec marks as derived: every step keeps the agreement of `OUT` with the reference function, in
both phases, from every state that has it. -/
def Obligations.StepKeepsAgreementWithEncodeSeq : Prop :=
  ∀ s t : State, s.Inv → s.Agrees → step s = .next t → t.Agrees

/-- R145: a complete state is final (only a reset leaves it), a state with `ph` = 1 is never complete, and where the
agreement holds `OUT` is then the encoding of all of `IN`. -/
def Obligations.CompleteStateIsFinal : Prop :=
  (∀ s : State, s.complete = true → s.resetDone = true → s.pin.rst = false →
    step s = .next { s with pins := s.pins.tail }) ∧
  (∀ s : State, s.ph = .pending → s.complete = false) ∧
  (∀ s : State, s.Agrees → s.complete = true →
    s.out.bytes = encodeSeq s.cfg.narrowMode (s.input.filterMap (PortRecord.instr s.cfg.opw)) ∧
    (s.input.filterMap (PortRecord.instr s.cfg.opw)).length = s.input.length)

/-- R144, R145: in every legal build, for every instruction sequence and every schedule of handshakes and resets, a
run that reaches a complete state has put out `EncSeq` of the sequence. For schedules with resets this rests on the
model's choice that a reset cycle keeps the input (assumption log entry 6): the next run is over the same sequence. -/
def Obligations.CompleteRunOutputsEncodeSeq : Prop :=
  ∀ (cfg : Config) (is : List Instr) (pins : List Pins) (after : Pins) (k : Nat) (t : State), cfg.wf = true →
    Host.Core.run Sys2Proof.core k
      { State.load cfg (is.map Instr.record) with pins := pins, pinsAfter := after } = .next t →
    t.complete = true → t.out.bytes = encodeSeq cfg.narrowMode is

/-- R36, R144: the final `OUT` does not depend on the schedule: two runs of the same build over the same input, both
complete, have the same output. Where a schedule resets the block, `OUT` is that of the run since the last reset, over
the same input (assumption log entry 6); nothing is said of the output that a reset cut off (R181). -/
def Obligations.OutputDoesNotDependOnSchedule : Prop :=
  ∀ (s s' : State) (k k' : Nat) (t t' : State), s.Launch → s'.Launch → s.cfg = s'.cfg → s.input = s'.input →
    Host.Core.run Sys2Proof.core k s = .next t → Host.Core.run Sys2Proof.core k' s' = .next t' →
    t.complete = true → t'.complete = true → t.out = t'.out

/-- R189: a run that meets all the launch premises, in none of its cycles reset with `ph` = 1, is never refused, keeps
the shape of the stream and the agreement with the reference function, its input and its configuration, and is not
marked as cut. Its cycles may hold resets with `ph` = 0: that the input is then kept is the model's choice, assumption
log entry 6, and the mark `cutRun` is the model's own, assumption log entry 7. -/
def Obligations.LaunchedRunIsNeverRefused : Prop :=
  ∀ (k : Nat) (s : State), s.LaunchRun k →
    ∃ t, Host.Core.run Sys2Proof.core k s = .next t ∧ t.Inv ∧ t.Agrees ∧ t.input = s.input ∧ t.cfg = s.cfg ∧
      (s.cutRun = false → t.cutRun = false)

/-- R152, R186: a run of N instructions with M Movs is complete after N + M steps once the environment keeps the two
fairness promises of R186, which are premises here: under every schedule without reset in which N + M cycles keep
them, wherever they stand and whatever the other cycles do; and after every such schedule, N + M cycles later, if the
environment keeps them from then on. Under no schedule is it complete earlier; for schedules with resets this last
clause rests on the model's choice that a reset cycle keeps the input (assumption log entry 6). -/
def Obligations.RunsComplete : Prop :=
  ∀ (cfg : Config) (is : List Instr) (pins : List Pins) (after : Pins), cfg.wf = true →
    let s := { State.load cfg (is.map Instr.record) with pins := pins, pinsAfter := after }
    ((∀ p ∈ pins, p.rst = false) → is.length + movCount is ≤ (pins.filter Pins.moves).length →
      ∃ t, Host.Core.run Sys2Proof.core pins.length s = .next t ∧ t.complete = true) ∧
    ((∀ p ∈ pins, p.rst = false) → after.moves = true →
      ∃ t, Host.Core.run Sys2Proof.core (pins.length + (is.length + movCount is)) s = .next t ∧ t.complete = true) ∧
    (∀ (k : Nat) (t : State), k < is.length + movCount is → Host.Core.run Sys2Proof.core k s = .next t →
      t.complete = false)

/-- R184, R186: without the fairness premises a run need not end: once the sink is never ready again, or with `ph` = 0
the host never offers again, no cycle ever changes the state. -/
def Obligations.UnfairEnvironmentStallsForever : Prop :=
  ∀ s : State, s.pins = [] → s.pinsAfter.rst = false →
    (s.pinsAfter.outReady = false ∨ (s.pinsAfter.offer = false ∧ s.ph = .idle ∧ s.resetDone = true)) →
    ∀ k, Host.Core.run Sys2Proof.core k s = .next s

/-! ## The front end (surrounding software) -/

/-- R81: parsing the canonical spelling of a program gives the program back, when every operand fits the parser's
integer type; else the parse is refused by the name of the open point (R83, `FE_INT_OVERFLOW`, assumption log
entry 16). -/
def Obligations.CanonicalSpellingParsesBack : Prop :=
  ∀ (fe : FrontEnd) (sourceName : List Char) (is : List Instr),
    parse fe sourceName (spellProgram is) =
      if is.all (Instr.operandsUpTo fe.intMax) then .instrs is else .notSettled .integerOverflow

/-- R77, R78: the first failing line ends the parse, whatever follows it, and is reported under the count of lines
parsed successfully before it, plus one. The lines before it and after it can be none at all, and the text can end
without a newline. -/
def Obligations.FirstFailingLineIsReported : Prop :=
  ∀ (fe : FrontEnd) (sourceName bad : List Char) (before after : List (List Char)) (is : List Instr) (c : Cause),
    parse fe sourceName (List.intercalate ['\n'] before) = .instrs is → '\n' ∉ bad → parseLine fe bad = .invalid c →
    parse fe sourceName (List.intercalate ['\n'] (before ++ bad :: after)) =
      .failed { sourceName := sourceName, line := is.length + 1, cause := c }

/-- R71, R77, R79: a line is skipped exactly when its trimmed text is empty or begins with `#`; a successful parse has
one instruction for each other line; a source of blank lines and comments only has none. That only the newline ends a
comment, and which characters are white space, are the readings of assumption log entry 15. -/
def Obligations.OneInstructionPerLineNotSkipped : Prop :=
  (∀ (fe : FrontEnd) (line : List Char),
    parseLine fe line = .skipped ↔ (trim line = [] ∨ (trim line).head? = some '#')) ∧
  (∀ (fe : FrontEnd) (sourceName text : List Char) (is : List Instr), parse fe sourceName text = .instrs is →
    is.length = ((splitAll '\n' text).filter fun l => trim l ≠ [] ∧ (trim l).head? ≠ some '#').length) ∧
  (∀ (fe : FrontEnd) (sourceName text : List Char),
    (∀ l ∈ splitAll '\n' text, trim l = [] ∨ (trim l).head? = some '#') → parse fe sourceName text = .instrs [])

/-- R71: because the whole line is lower-cased, a source parses like its lower-cased text. -/
def Obligations.ParsingIgnoresLetterCase : Prop :=
  ∀ (fe : FrontEnd) (sourceName text : List Char),
    parse fe sourceName (text.map Char.toLower) = parse fe sourceName text

/-- R161: the block is started on the complete sequence, at a launch state with empty output, or not at all. -/
def Obligations.FailedParseStartsNothing : Prop :=
  ∀ (fe : FrontEnd) (cfg : Config) (sourceName text : List Char), cfg.wf = true →
    (∀ is, parse fe sourceName text = .instrs is →
      ∃ s, startRun fe cfg sourceName text = some s ∧ s.Launch ∧ s.acceptedInstrs = [] ∧
        s.input.map (PortRecord.instr cfg.opw) = is.map fun i => some (i.onPorts cfg.opw)) ∧
    (∀ d, parse fe sourceName text = .failed d → startRun fe cfg sourceName text = none)

/-- R74, R75: a register operand whose first character is not `r`, a value operand whose first character is `r`, and
an absent operand fail, and so does every operand with a minus sign before the rest (N7, 7). An operand with a
character that is no ASCII letter or digit, sign, underscore or white space fails too. That last clause holds in part
by the readings of assumption log entry 15: that a digit of another script is not numeric is PRESUMED, and that a digit
separator other than the underscore, as in `1'000`, is not numeric is a DESIGN CHOICE where R75 leaves separators open.
It takes in the carriage return and the other line-end characters as well, which are no white space here; on a line,
`dispatchTokens` answers those by the name of the open point before an operand is validated. Numbers up to the parser's
limit `intMax` are accepted, the parameter of assumption log entry 16, `r1024` and `1024` among them in every legal
front end. Nothing is said of a remainder of ASCII letters only, as in `rx`. -/
def Obligations.OperandValidation : Prop :=
  ∀ fe : FrontEnd,
    registerOperand fe none = .invalid .missingOperand ∧ valueOperand fe none = .invalid .missingOperand ∧
    (∀ c cs, c ≠ 'r' → registerOperand fe (some (c :: cs)) = .invalid (.mustBeRegister (c :: cs))) ∧
    (∀ cs, valueOperand fe (some ('r' :: cs)) = .invalid (.mustBeNumber ('r' :: cs))) ∧
    (∀ x cs, x ∈ cs → x.isAlphanum = false → isBlank x = false → x ≠ '_' → x ≠ '+' → x ≠ '-' →
      registerOperand fe (some ('r' :: cs)) = .invalid (.mustBeRegister ('r' :: cs)) ∧
      (cs.head? ≠ some 'r' → valueOperand fe (some cs) = .invalid (.mustBeNumber cs))) ∧
    (∀ cs, (∃ c, registerOperand fe (some ('r' :: '-' :: cs)) = .invalid c) ∧
      ∃ c, valueOperand fe (some ('-' :: cs)) = .invalid c) ∧
    (∀ n, n ≤ fe.intMax ∨ (fe.wf = true ∧ n ≤ 1024) →
      registerOperand fe (some (registerName n)) = .value n ∧ valueOperand fe (some (decimal n)) = .value n)

/-- R72, R76: a line whose first token, before the first space, is no mnemonic of the table fails naming that token,
whatever follows it on the line. That the cause is always the one of R76, and never a malformed mnemonic (R77), is the
model's choice, assumption log entry 19; that the token named is lower-cased in its ASCII letters only is assumption
log entry 15. -/
def Obligations.UnknownMnemonicFails : Prop :=
  ∀ (fe : FrontEnd) (c : Char) (token rest : List Char), c ≠ '#' →
    (∀ x ∈ c :: token, isBlank x = false ∧ isLineEnd x = false) →
    variantOfMnemonic ((c :: token).map Char.toLower) = none →
    parseLine fe (c :: token ++ ' ' :: rest) = .invalid (.unknownOperand ((c :: token).map Char.toLower)) ∧
    parseLine fe (c :: token) = .invalid (.unknownOperand ((c :: token).map Char.toLower))
end

