-- ==== Sys2Proof/Laws/Decode.lean ====
section
/-! SUPPORT. The small lemmas of the packing functions, the tags, the port record, the sequence encoder and the opcode
decoder. -/

namespace Sys2Proof

/-- The bits of a slice. -/
theorem slice_testBit (v hi lo j : Nat) :
    (slice v hi lo).testBit j = (decide (j < hi - lo + 1) && v.testBit (lo + j)) := by
  unfold slice
  rw [Nat.testBit_mod_two_pow, Nat.testBit_div_two_pow, Nat.add_comm j lo]

/-- The bits of a word packed under `BYTE`. -/
theorem packByte_testBit (op a b i : Nat) :
    (packByte op a b).toNat.testBit i =
      (decide (i < 8) && ((decide (4 ≤ i) && op.testBit (i - 4)) || (decide (2 ≤ i) && a.testBit (i - 2)) ||
        b.testBit i)) := by
  unfold packByte trunc
  rw [BitVec.toNat_ofNat, Nat.mod_mod]
  simp only [Nat.testBit_mod_two_pow, Nat.testBit_or, Nat.testBit_shiftLeft, ge_iff_le]
  by_cases h : i < 8
  · simp [h, show i - 4 < 8 by omega, show i - 2 < 8 by omega]
  · simp [h]

/-- Shifting three fields into place and ORing them is adding them, when the two low fields fit. -/
theorem or_fields (x y z : Nat) (hy : y < 4) (hz : z < 4) : (x <<< 4 ||| y <<< 2 ||| z) = 16 * x + 4 * y + z := by
  have low : x <<< 4 ||| y <<< 2 = (4 * x + y) <<< 2 := by
    rw [← Nat.shiftLeft_add_eq_or_of_lt (by rw [Nat.shiftLeft_eq]; omega)]
    simp only [Nat.shiftLeft_eq]
    omega
  rw [low, ← Nat.shiftLeft_add_eq_or_of_lt (by omega), Nat.shiftLeft_eq]
  omega

/-- A tag names a variant exactly when it is the variant's tag. -/
theorem Variant.ofTag_eq_some (t : BitVec 4) (v : Variant) : Variant.ofTag t = some v ↔ t = v.tag := by
  revert t
  cases v <;> decide

/-- A port record presents an instruction exactly when its tag names a variant. -/
theorem PortRecord.instr_eq_some {w : Nat} {r : PortRecord} {i : Instr} (h : r.instr w = some i) :
    ∃ v, Variant.ofTag r.tag = some v ∧ i = Instr.ofVariant v (portValue w r.dest) (portValue w r.source) := by
  simp only [PortRecord.instr, Option.map_eq_some_iff] at h
  obtain ⟨v, hv, rfl⟩ := h
  exact ⟨v, hv, rfl⟩

@[simp] theorem encodeSeq_nil (m : NarrowMode) : encodeSeq m [] = [] := rfl

@[simp] theorem encodeSeq_cons (m : NarrowMode) (i : Instr) (is : List Instr) :
    encodeSeq m (i :: is) = encode m i ++ encodeSeq m is := rfl

/-- `EncSeq(xs ++ ys) = EncSeq(xs) ++ EncSeq(ys)` (R141). -/
theorem encodeSeq_append (m : NarrowMode) (a b : List Instr) :
    encodeSeq m (a ++ b) = encodeSeq m a ++ encodeSeq m b := by
  induction a with
  | nil => rfl
  | cons i is ih => simp [ih]

/-- `DecOpcodes` at a first byte that is not a Mov's. -/
theorem decOpcodes_cons_of_ne {w : Word} (rest : List Byte) (h : (split w).1 ≠ 1) :
    decOpcodes (w :: rest) = (split w).1 :: decOpcodes rest := by
  cases rest <;> simp [decOpcodes, h]

/-- `DecOpcodes` at a Mov's first byte: the immediate is skipped. -/
theorem decOpcodes_mov {w : Word} (imm : Byte) (rest : List Byte) (h : (split w).1 = 1) :
    decOpcodes (w :: imm :: rest) = 1 :: decOpcodes rest := by
  simp [decOpcodes, h]

end Sys2Proof
end

