-- ==== Sys2Proof/Laws/FrontEnd.lean ====
section
/-! SUPPORT. The small lemmas of the Line Parser's token functions. -/

namespace Sys2Proof.Machine

/-- There is always at least one token. -/
theorem splitAll_ne_nil (sep : Char) (l : List Char) : splitAll sep l ≠ [] := by
  cases l with
  | nil => simp [splitAll]
  | cons c cs =>
    simp only [splitAll]
    split
    · simp
    · split <;> simp

/-- A text without separators is one token. -/
theorem splitAll_of_not_mem {sep : Char} {l : List Char} (h : sep ∉ l) : splitAll sep l = [l] := by
  induction l with
  | nil => rfl
  | cons c cs ih =>
    simp only [List.mem_cons, not_or] at h
    simp [splitAll, Ne.symm h.1, ih h.2]

/-- Tokens before a separator and tokens after it. -/
theorem splitAll_append (sep : Char) (l r : List Char) :
    splitAll sep (l ++ sep :: r) = splitAll sep l ++ splitAll sep r := by
  induction l with
  | nil => simp [splitAll]
  | cons c cs ih =>
    simp only [List.cons_append, splitAll, ih]
    split
    · rfl
    · cases h : splitAll sep cs with
      | nil => exact absurd h (splitAll_ne_nil _ _)
      | cons t ts => simp

/-- What is not white space survives trimming. -/
theorem mem_trim {x : Char} {l : List Char} (h : x ∈ l) (hx : isBlank x = false) : x ∈ trim l := by
  have keep : ∀ l : List Char, x ∈ l → x ∈ l.dropWhile isBlank := by
    intro l
    induction l with
    | nil => exact id
    | cons c cs ih =>
      intro h
      simp only [List.dropWhile]
      split
      · rcases List.mem_cons.mp h with rfl | h
        · simp_all
        · exact ih h
      · exact h
  simp only [trim, List.mem_reverse]
  exact keep _ (List.mem_reverse.mpr (keep l h))

/-- A text that does not begin or end with white space is not trimmed. -/
theorem trim_eq_self {c x : Char} {l : List Char} (hc : isBlank c = false) (hx : isBlank x = false)
    (last : (c :: l).getLast? = some x) : trim (c :: l) = c :: l := by
  have front : (c :: l).dropWhile isBlank = c :: l := by simp [List.dropWhile, hc]
  rw [trim, front]
  rw [List.getLast?_eq_head?_reverse] at last
  cases hr : (c :: l).reverse with
  | nil => simp at hr
  | cons y ys =>
    rw [hr] at last
    cases last
    have back : (x :: ys).dropWhile isBlank = x :: ys := by simp [List.dropWhile, hx]
    rw [back, ← hr, List.reverse_reverse]

/-- Reading a decimal digit appends it. -/
theorem pushDigit_digitChar {k : Nat} (hk : k < 10) (a : Nat) : pushDigit a (digitChar k) = 10 * a + k := by
  have values : ∀ k < 10, (digitChar k).toNat - 48 = k := by decide
  rw [pushDigit, values k hk]

end Sys2Proof.Machine
end

