-- ==== Sys2Proof/Laws/Memory.lean ====
section
/-! SUPPORT. The laws of the output stream as a memory: read after write, and that a write keeps the canonical form
(offsets strictly rising). -/

namespace Sys2Proof.Machine

@[simp] theorem Memory.read_nil (a : Nat) : Memory.read [] a = none := rfl

/-- A read of the offset just written gives the byte written. -/
theorem Memory.read_write_self (m : Memory) (a : Nat) (b : Byte) : (m.write a b).read a = some b := by
  induction m with
  | nil => simp [Memory.write, Memory.read]
  | cons c rest ih =>
    unfold Memory.write
    split
    · simp [Memory.read]
    · split
      · simp [Memory.read]
      · rename_i h1 h2
        simpa [Memory.read, Ne.symm h2] using ih

/-- A write leaves every other offset alone. -/
theorem Memory.read_write_other (m : Memory) {a x : Nat} (b : Byte) (h : x ≠ a) :
    (m.write a b).read x = m.read x := by
  induction m with
  | nil => simp [Memory.write, Memory.read, Ne.symm h]
  | cons c rest ih =>
    unfold Memory.write
    split
    · simp [Memory.read, Ne.symm h]
    · split
      · rename_i _ h2
        simp [Memory.read, ← h2, Ne.symm h]
      · simp [Memory.read, ih]

/-- The offsets of a memory after a write: those it had, and the one written. -/
theorem Memory.mem_write {m : Memory} {a : Nat} {b : Byte} {c : Host.Cell} (h : c ∈ m.write a b) :
    c = (a, b) ∨ c ∈ m := by
  induction m with
  | nil => simpa [Memory.write] using h
  | cons d rest ih =>
    unfold Memory.write at h
    split at h
    · simpa using h
    · split at h
      · simp only [List.mem_cons] at h ⊢
        exact h.imp_right Or.inr
      · simp only [List.mem_cons] at h ⊢
        rcases h with h | h
        · exact .inr (.inl h)
        · exact (ih h).imp_right .inr

/-- Every write keeps the canonical form. -/
theorem Memory.write_wf {m : Memory} (h : m.wf) (a : Nat) (b : Byte) : (m.write a b).wf := by
  induction m with
  | nil => simp [Memory.write, Memory.wf]
  | cons c rest ih =>
    obtain ⟨hc, hr⟩ := List.pairwise_cons.mp h
    unfold Memory.write
    split
    · rename_i hlt
      refine List.pairwise_cons.mpr ⟨fun d hd => ?_, h⟩
      rcases List.mem_cons.mp hd with rfl | hd
      · exact hlt
      · exact hlt.trans (hc d hd)
    · split
      · rename_i _ heq
        exact List.pairwise_cons.mpr ⟨fun d hd => heq ▸ hc d hd, hr⟩
      · rename_i h1 h2
        refine List.pairwise_cons.mpr ⟨fun d hd => ?_, ih hr⟩
        rcases Memory.mem_write hd with rfl | hd
        · show c.1 < a
          omega
        · exact hc d hd

/-- A write at an offset above every offset listed appends. -/
theorem Memory.write_above {m : Memory} {a : Nat} (b : Byte) (h : ∀ c ∈ m, c.1 < a) : m.write a b = m ++ [(a, b)] := by
  induction m with
  | nil => rfl
  | cons c rest ih =>
    have hc := h c (by simp)
    simp [Memory.write, ih fun d hd => h d (by simp [hd]), show ¬ a < c.1 by omega, show ¬ a = c.1 by omega]

/-- `Emit` appends to a stream that is contiguous from offset 0. -/
theorem Memory.write_next {m : Memory} {n : Nat} (b : Byte) (h : m.map Prod.fst = List.range n) :
    m.write n b = m ++ [(n, b)] :=
  Memory.write_above b fun _ hc => List.mem_range.mp (h ▸ List.mem_map_of_mem hc)

@[simp] theorem Memory.bytes_append (m n : Memory) : Memory.bytes (m ++ n) = Memory.bytes m ++ Memory.bytes n :=
  List.map_append

@[simp] theorem Memory.bytes_single (c : Host.Cell) : Memory.bytes [c] = [c.2] := rfl

/-- The empty stream is in canonical form. -/
theorem Memory.wf_nil : Memory.wf [] := List.Pairwise.nil

/-- A stream that is contiguous from offset 0 is in canonical form. -/
theorem Memory.wf_of_range {m : Memory} {n : Nat} (h : m.map Prod.fst = List.range n) : m.wf := by
  have := List.pairwise_lt_range (n := n)
  rw [← h] at this
  exact List.pairwise_map.mp this

/-- Emit keeps the canonical form. -/
theorem State.emit_wf {s : State} (h : s.out.wf) (b : Byte) : (s.emit b).out.wf := Memory.write_wf h _ _

/-- DRAIN keeps the canonical form. -/
theorem State.drain_wf {s : State} (h : s.out.wf) : s.drain.out.wf := Memory.write_wf h _ _

/-- ACCEPT keeps the canonical form. -/
theorem State.accept_wf {s : State} (h : s.out.wf) (v : Variant) (d r : Nat) : (s.accept v d r).out.wf := by
  cases v <;> exact Memory.write_wf h _ _

/-- The reset state's stream is in canonical form. -/
theorem State.reset_wf : State.reset.out.wf := Memory.wf_nil

end Sys2Proof.Machine
end

