-- ==== Sys2Proof/Laws/PerInstr.lean ====
section
/-! SUPPORT. Statements made per instruction, one lemma per constructor: the length of an encoding, and that the port
record of an instruction presents it. -/

namespace Sys2Proof.Laws.EncodingLength

/-- "Exactly 1 byte except Mov which contributes exactly 2" (20_memory.md R33, 30_encoding.md R50), in both modes. -/
def Statement (i : Instr) : Prop :=
  (∀ m, (encode m i).length = i.size) ∧ (i.size = 2 ↔ i.variant = .mov) ∧ (i.size = 1 ↔ i.variant ≠ .mov)

theorem mov (dest source : Nat) : Statement (.mov dest source) := ⟨fun _ => rfl, by simp [Instr.size, Instr.variant], by simp [Instr.size, Instr.variant]⟩
theorem add (dest source : Nat) : Statement (.add dest source) := ⟨fun _ => rfl, by simp [Instr.size, Instr.variant], by simp [Instr.size, Instr.variant]⟩
theorem sub (dest source : Nat) : Statement (.sub dest source) := ⟨fun _ => rfl, by simp [Instr.size, Instr.variant], by simp [Instr.size, Instr.variant]⟩
theorem mult (dest source : Nat) : Statement (.mult dest source) := ⟨fun _ => rfl, by simp [Instr.size, Instr.variant], by simp [Instr.size, Instr.variant]⟩
theorem div (dest source : Nat) : Statement (.div dest source) := ⟨fun _ => rfl, by simp [Instr.size, Instr.variant], by simp [Instr.size, Instr.variant]⟩
theorem xor (dest source : Nat) : Statement (.xor dest source) := ⟨fun _ => rfl, by simp [Instr.size, Instr.variant], by simp [Instr.size, Instr.variant]⟩
theorem cmp (dest source : Nat) : Statement (.cmp dest source) := ⟨fun _ => rfl, by simp [Instr.size, Instr.variant], by simp [Instr.size, Instr.variant]⟩
theorem out (source : Nat) : Statement (.out source) := ⟨fun _ => rfl, by simp [Instr.size, Instr.variant], by simp [Instr.size, Instr.variant]⟩
theorem inp (dest : Nat) : Statement (.inp dest) := ⟨fun _ => rfl, by simp [Instr.size, Instr.variant], by simp [Instr.size, Instr.variant]⟩
theorem hlt : Statement (.hlt) := ⟨fun _ => rfl, by simp [Instr.size, Instr.variant], by simp [Instr.size, Instr.variant]⟩

end Sys2Proof.Laws.EncodingLength

namespace Sys2Proof.Laws.RecordPresents

/-- The port record of an instruction carries the tag of its variant and presents the instruction, its operands
narrowed to the ports (10_state.md R11 to R13). -/
def Statement (i : Instr) : Prop :=
  i.record.tag = i.variant.tag ∧ ∀ w, i.record.instr w = some (i.onPorts w)

theorem mov (dest source : Nat) : Statement (.mov dest source) := ⟨rfl, fun _ => rfl⟩
theorem add (dest source : Nat) : Statement (.add dest source) := ⟨rfl, fun _ => rfl⟩
theorem sub (dest source : Nat) : Statement (.sub dest source) := ⟨rfl, fun _ => rfl⟩
theorem mult (dest source : Nat) : Statement (.mult dest source) := ⟨rfl, fun _ => rfl⟩
theorem div (dest source : Nat) : Statement (.div dest source) := ⟨rfl, fun _ => rfl⟩
theorem xor (dest source : Nat) : Statement (.xor dest source) := ⟨rfl, fun _ => rfl⟩
theorem cmp (dest source : Nat) : Statement (.cmp dest source) := ⟨rfl, fun _ => rfl⟩
theorem out (source : Nat) : Statement (.out source) := ⟨rfl, fun _ => rfl⟩
theorem inp (dest : Nat) : Statement (.inp dest) := ⟨rfl, fun _ => rfl⟩
theorem hlt : Statement (.hlt) := ⟨rfl, fun _ => rfl⟩

end Sys2Proof.Laws.RecordPresents
end

