-- ==== Sys2Proof/Laws/State.lean ====
section
/-! SUPPORT. One lemma per field per named operation on the state, so that no later proof unfolds a record update. -/

namespace Sys2Proof.Machine.State

/-! ## Emit -/

@[simp] theorem emit_cfg (b : Byte) (s : State) : (s.emit b).cfg = s.cfg := rfl
@[simp] theorem emit_input (b : Byte) (s : State) : (s.emit b).input = s.input := rfl
@[simp] theorem emit_pins (b : Byte) (s : State) : (s.emit b).pins = s.pins := rfl
@[simp] theorem emit_pinsAfter (b : Byte) (s : State) : (s.emit b).pinsAfter = s.pinsAfter := rfl
@[simp] theorem emit_resetDone (b : Byte) (s : State) : (s.emit b).resetDone = s.resetDone := rfl
@[simp] theorem emit_ph (b : Byte) (s : State) : (s.emit b).ph = s.ph := rfl
@[simp] theorem emit_immHold (b : Byte) (s : State) : (s.emit b).immHold = s.immHold := rfl
@[simp] theorem emit_ipos (b : Byte) (s : State) : (s.emit b).ipos = s.ipos := rfl
@[simp] theorem emit_opos (b : Byte) (s : State) : (s.emit b).opos = s.opos + 1 := rfl
@[simp] theorem emit_out (b : Byte) (s : State) : (s.emit b).out = s.out.write s.opos b := rfl
@[simp] theorem emit_cutRun (b : Byte) (s : State) : (s.emit b).cutRun = s.cutRun := rfl
@[simp] theorem emit_free (b : Byte) (s : State) : (s.emit b).free = s.free := rfl

/-! ## ACCEPT -/

@[simp] theorem accept_cfg (v : Variant) (d r : Nat) (s : State) : (s.accept v d r).cfg = s.cfg := by
  cases v <;> rfl
@[simp] theorem accept_input (v : Variant) (d r : Nat) (s : State) : (s.accept v d r).input = s.input := by
  cases v <;> rfl
@[simp] theorem accept_pins (v : Variant) (d r : Nat) (s : State) : (s.accept v d r).pins = s.pins := by
  cases v <;> rfl
@[simp] theorem accept_pinsAfter (v : Variant) (d r : Nat) (s : State) : (s.accept v d r).pinsAfter = s.pinsAfter := by
  cases v <;> rfl
@[simp] theorem accept_resetDone (v : Variant) (d r : Nat) (s : State) : (s.accept v d r).resetDone = s.resetDone := by
  cases v <;> rfl
@[simp] theorem accept_ph (v : Variant) (d r : Nat) (s : State) : (s.accept v d r).ph = if (rom v).tb then .pending else s.ph := by
  cases v <;> rfl
@[simp] theorem accept_immHold (v : Variant) (d r : Nat) (s : State) : (s.accept v d r).immHold = if (rom v).tb then imm8 r else s.immHold := by
  cases v <;> rfl
@[simp] theorem accept_ipos (v : Variant) (d r : Nat) (s : State) : (s.accept v d r).ipos = s.ipos + 1 := by
  cases v <;> rfl
@[simp] theorem accept_opos (v : Variant) (d r : Nat) (s : State) : (s.accept v d r).opos = s.opos + 1 := by
  cases v <;> rfl
@[simp] theorem accept_out (v : Variant) (d r : Nat) (s : State) : (s.accept v d r).out = s.out.write s.opos ((rom v).firstByte s.cfg.narrowMode d r) := by
  cases v <;> rfl
@[simp] theorem accept_cutRun (v : Variant) (d r : Nat) (s : State) : (s.accept v d r).cutRun = s.cutRun := by
  cases v <;> rfl
@[simp] theorem accept_free (v : Variant) (d r : Nat) (s : State) : (s.accept v d r).free = s.free := by
  cases v <;> rfl

/-! ## DRAIN -/

@[simp] theorem drain_cfg (s : State) : (s.drain).cfg = s.cfg := rfl
@[simp] theorem drain_input (s : State) : (s.drain).input = s.input := rfl
@[simp] theorem drain_pins (s : State) : (s.drain).pins = s.pins := rfl
@[simp] theorem drain_pinsAfter (s : State) : (s.drain).pinsAfter = s.pinsAfter := rfl
@[simp] theorem drain_resetDone (s : State) : (s.drain).resetDone = s.resetDone := rfl
@[simp] theorem drain_ph (s : State) : (s.drain).ph = .idle := rfl
@[simp] theorem drain_immHold (s : State) : (s.drain).immHold = s.immHold := rfl
@[simp] theorem drain_ipos (s : State) : (s.drain).ipos = s.ipos := rfl
@[simp] theorem drain_opos (s : State) : (s.drain).opos = s.opos + 1 := rfl
@[simp] theorem drain_out (s : State) : (s.drain).out = s.out.write s.opos s.immHold := rfl
@[simp] theorem drain_cutRun (s : State) : (s.drain).cutRun = s.cutRun := rfl
@[simp] theorem drain_free (s : State) : (s.drain).free = s.free := rfl

/-! ## Reset -/

@[simp] theorem applyReset_cfg (s : State) : (s.applyReset).cfg = s.cfg := rfl
@[simp] theorem applyReset_input (s : State) : (s.applyReset).input = s.input := rfl
@[simp] theorem applyReset_pins (s : State) : (s.applyReset).pins = s.pins := rfl
@[simp] theorem applyReset_pinsAfter (s : State) : (s.applyReset).pinsAfter = s.pinsAfter := rfl
@[simp] theorem applyReset_resetDone (s : State) : (s.applyReset).resetDone = true := rfl
@[simp] theorem applyReset_ph (s : State) : (s.applyReset).ph = .idle := rfl
@[simp] theorem applyReset_immHold (s : State) : (s.applyReset).immHold = Config.freeByte s.free := rfl
@[simp] theorem applyReset_ipos (s : State) : (s.applyReset).ipos = 0 := rfl
@[simp] theorem applyReset_opos (s : State) : (s.applyReset).opos = 0 := rfl
@[simp] theorem applyReset_out (s : State) : (s.applyReset).out = [] := rfl
@[simp] theorem applyReset_cutRun (s : State) : (s.applyReset).cutRun = (s.resetDone && s.ph == .pending) := rfl
@[simp] theorem applyReset_free (s : State) : (s.applyReset).free = s.free + 1 := rfl

/-! ## The clock cycle -/

@[simp] theorem tick_cfg (s : State) : (s.tick).cfg = s.cfg := rfl
@[simp] theorem tick_input (s : State) : (s.tick).input = s.input := rfl
@[simp] theorem tick_pins (s : State) : (s.tick).pins = s.pins.tail := rfl
@[simp] theorem tick_pinsAfter (s : State) : (s.tick).pinsAfter = s.pinsAfter := rfl
@[simp] theorem tick_resetDone (s : State) : (s.tick).resetDone = s.resetDone := rfl
@[simp] theorem tick_ph (s : State) : (s.tick).ph = s.ph := rfl
@[simp] theorem tick_immHold (s : State) : (s.tick).immHold = s.immHold := rfl
@[simp] theorem tick_ipos (s : State) : (s.tick).ipos = s.ipos := rfl
@[simp] theorem tick_opos (s : State) : (s.tick).opos = s.opos := rfl
@[simp] theorem tick_out (s : State) : (s.tick).out = s.out := rfl
@[simp] theorem tick_cutRun (s : State) : (s.tick).cutRun = s.cutRun := rfl
@[simp] theorem tick_free (s : State) : (s.tick).free = s.free := rfl

/-! ## The start of a run -/

@[simp] theorem load_cfg (c : Config) (l : List PortRecord) : (State.load c l).cfg = c := rfl
@[simp] theorem load_input (c : Config) (l : List PortRecord) : (State.load c l).input = l := rfl
@[simp] theorem load_pins (c : Config) (l : List PortRecord) : (State.load c l).pins = [] := rfl
@[simp] theorem load_pinsAfter (c : Config) (l : List PortRecord) : (State.load c l).pinsAfter = Pins.ready := rfl
@[simp] theorem load_resetDone (c : Config) (l : List PortRecord) : (State.load c l).resetDone = true := rfl
@[simp] theorem load_ph (c : Config) (l : List PortRecord) : (State.load c l).ph = .idle := rfl
@[simp] theorem load_immHold (c : Config) (l : List PortRecord) : (State.load c l).immHold = 0 := rfl
@[simp] theorem load_ipos (c : Config) (l : List PortRecord) : (State.load c l).ipos = 0 := rfl
@[simp] theorem load_opos (c : Config) (l : List PortRecord) : (State.load c l).opos = 0 := rfl
@[simp] theorem load_out (c : Config) (l : List PortRecord) : (State.load c l).out = [] := rfl
@[simp] theorem load_cutRun (c : Config) (l : List PortRecord) : (State.load c l).cutRun = false := rfl
@[simp] theorem load_free (c : Config) (l : List PortRecord) : (State.load c l).free = 0 := rfl

end Sys2Proof.Machine.State
end

