-- ==== Sys2Proof/Laws/Step.lean ====
section
/-! SUPPORT. What the shared operations can answer, said once: offering an instruction, `exec`, the kind of a cycle,
and `step`. -/

namespace Sys2Proof.Machine

/-! ## Offering an instruction -/

/-- With `ph` = 0 the offered instruction is accepted. -/
theorem State.offer_idle {s : State} (h : s.ph = .idle) (v : Variant) (d r : Nat) :
    s.offer v d r = .next (s.accept v d r) := by
  simp [State.offer, h]

/-- With `ph` = 1 the step is the DRAIN. -/
theorem State.offer_pending {s : State} (h : s.ph = .pending) (v : Variant) (d r : Nat) :
    s.offer v d r = .next s.drain := by
  simp [State.offer, h]

/-- The operand ports `exec` reads for an instruction, with a free value on a port its variant does not use. -/
def portsOf : Instr → Nat × Nat
  | .mov d s | .add d s | .sub d s | .mult d s | .div d s | .xor d s | .cmp d s => (d, s)
  | .out s => (Config.dontCare, s)
  | .inp d => (d, Config.dontCare)
  | .hlt => (Config.dontCare, Config.dontCare)

/-- Every meaning is an offer of its variant. -/
theorem exec_eq_offer (i : Instr) (s : State) : exec i s = s.offer i.variant (portsOf i).1 (portsOf i).2 := by
  cases i <;> rfl

/-- `exec` answers one of two next states, the accepted or the drained one. -/
theorem exec_cases (i : Instr) (s : State) :
    (s.ph = .idle ∧ exec i s = .next (s.accept i.variant (portsOf i).1 (portsOf i).2)) ∨
    (s.ph = .pending ∧ exec i s = .next s.drain) := by
  rw [exec_eq_offer]
  cases h : s.ph with
  | idle => exact .inl ⟨rfl, State.offer_idle h _ _ _⟩
  | pending => exact .inr ⟨rfl, State.offer_pending h _ _ _⟩

/-! ## The kind of a cycle -/

/-- Everything the kind of a cycle can be, with its conditions. -/
theorem State.action_cases (s : State) :
    (s.action = .reset ∧ s.pin.rst = true) ∨
    (s.action = .stall ∧ s.pin.rst = false ∧
      (s.pin.outReady = false ∨
        (s.resetDone = true ∧ s.ph = .idle ∧ (s.pin.offer = false ∨ s.offered = none)))) ∨
    (s.action = .refuse .usedBeforeReset ∧ s.pin.rst = false ∧ s.pin.outReady = true ∧ s.resetDone = false) ∨
    (s.pin.rst = false ∧ s.pin.outReady = true ∧ s.resetDone = true ∧
      ((s.action = .drain ∧ s.ph = .pending) ∨
       (s.ph = .idle ∧ s.pin.offer = true ∧ ∃ r, s.offered = some r ∧
         ((s.action = .refuse (.reservedTag r.tag) ∧ r.instr s.cfg.opw = none) ∨
          ∃ i, s.action = .accept i ∧ r.instr s.cfg.opw = some i)))) := by
  unfold State.action
  cases s.pin.rst <;> cases s.pin.outReady <;> cases s.resetDone <;> simp
  cases s.ph <;> simp
  cases s.pin.offer <;> simp
  cases s.offered with
  | none => simp
  | some r => cases hi : r.instr s.cfg.opw <;> simp [hi]

/-- Everything a step that answers a next state can do. -/
theorem step_next_cases {s t : State} (h : step s = .next t) :
    (s.pin.rst = true ∧ t = s.tick.applyReset) ∨
    (s.pin.rst = false ∧ s.action = .stall ∧ t = s.tick) ∨
    (s.pin.rst = false ∧ s.ph = .pending ∧ s.action = .drain ∧ t = s.tick.drain) ∨
    (s.pin.rst = false ∧ s.ph = .idle ∧ ∃ r i, s.offered = some r ∧ r.instr s.cfg.opw = some i ∧ s.action = .accept i ∧
      t = s.tick.accept i.variant (portsOf i).1 (portsOf i).2) := by
  unfold step at h
  rcases s.action_cases with ⟨ha, hr⟩ | ⟨ha, hr, -⟩ | ⟨ha, -⟩ | ⟨hr, -, -, ⟨ha, hp⟩ | ⟨hp, -, r, ho, ⟨ha, -⟩ | ⟨i, ha, hi⟩⟩⟩ <;>
    rw [ha] at h
  · cases h; exact .inl ⟨hr, rfl⟩
  · cases h; exact .inr (.inl ⟨hr, ha, rfl⟩)
  · cases h
  · cases h; exact .inr (.inr (.inl ⟨hr, hp, ha, rfl⟩))
  · cases h
  · rcases exec_cases i s.tick with ⟨-, he⟩ | ⟨hq, -⟩
    · simp only [he] at h
      cases h; exact .inr (.inr (.inr ⟨hr, hp, r, i, ho, hi, ha, rfl⟩))
    · simp [hp] at hq

/-! ## Placing an instruction -/

/-- A record placed for the next fetch is the one offered. -/
theorem State.present_offered (s : State) (r : PortRecord) : (s.present r).offered = some r := by
  have len : (s.input.take s.ipos ++ List.replicate (s.ipos - s.input.length) r).length = s.ipos := by
    simp only [List.length_append, List.length_take, List.length_replicate]
    omega
  simp only [State.offered, State.present, List.append_assoc]
  rw [← List.append_assoc, List.getElem?_append_right (by omega), len]
  simp

end Sys2Proof.Machine
end

