-- ==== Sys2Proof/Laws/Run.lean ====
section
/-! SUPPORT. Runs: one step more, and the induction over a run packaged once. -/

namespace Sys2Proof.Machine

/-- A run of `k + 1` steps takes one step and then `k` more. -/
theorem run_succ {k : Nat} {s t : State} (h : step s = .next t) :
    Host.Core.run Sys2Proof.core (k + 1) s = Host.Core.run Sys2Proof.core k t := by
  simp only [Host.Core.run]
  rw [show Sys2Proof.core.step s = .next t from h]

/-- What every step keeps, every run keeps. -/
theorem run_keeps (P : State → Prop) (keeps : ∀ s t, P s → step s = .next t → P t) :
    ∀ (k : Nat) (s t : State), P s → Host.Core.run Sys2Proof.core k s = .next t → P t
  | 0, s, t, hs, h => by cases h; exact hs
  | k + 1, s, t, hs, h => by
    cases hst : step s with
    | next u =>
      rw [run_succ hst] at h
      exact run_keeps P keeps k u t (keeps s u hs hst) h
    | fault r => cases r
    | refused r =>
      simp only [Host.Core.run] at h
      rw [show Sys2Proof.core.step s = .refused r from hst] at h
      cases h

/-- A run of `a + b` steps takes `a` steps and then `b` more. -/
theorem run_add {b : Nat} {t : State} : ∀ (a : Nat) (s : State), Host.Core.run Sys2Proof.core a s = .next t →
    Host.Core.run Sys2Proof.core (a + b) s = Host.Core.run Sys2Proof.core b t
  | 0, s, h => by cases h; rw [Nat.zero_add]
  | a + 1, s, h => by
    cases hst : step s with
    | next u =>
      rw [run_succ hst] at h
      rw [Nat.add_right_comm, run_succ hst]
      exact run_add a u h
    | fault r => cases r
    | refused r =>
      simp only [Host.Core.run] at h
      rw [show Sys2Proof.core.step s = .refused r from hst] at h
      cases h

end Sys2Proof.Machine
end

