-- ==== Sys2Proof/Machine/Flags.lean ====
section
/-! DEFINITION. Flags: RX8-ENC has none. "No instruction's encoding depends on any flag and no step sets one"
(10_state.md R20); there is no overflow condition, no carry and no rounding (30_encoding.md R65). Nothing is defined
here. -/
end

