-- ==== Sys2Proof/Tests/Slice0.lean ====
section
/-! SUPPORT. Tests on small states, with expected values from the spec's tables and worked examples
(95_test_vectors.md and the instruction rules), and a witness for every statement that has hypotheses. -/

namespace Sys2Proof.Tests

open Sys2Proof Sys2Proof.Machine

/-! ## Well-formedness: an ill-formed term for each check -/

theorem test_wf_accepts : ([.mov 3 255, .add 3 3, .sub 3 3, .mult 3 3, .div 3 3, .xor 3 3, .cmp 3 3, .out 3, .inp 3,
    .hlt] : List Instr).all Instr.wf = true := by decide

theorem test_wf_refuses_wide_register : ([.mov 4 0, .add 4 0, .add 0 4, .sub 4 0, .sub 0 4, .mult 4 0, .mult 0 4,
    .div 4 0, .div 0 4, .xor 4 0, .xor 0 4, .cmp 4 0, .cmp 0 4, .out 4, .inp 4] : List Instr).any Instr.wf = false := by
  decide

theorem test_wf_refuses_wide_immediate : (Instr.mov 0 256).wf = false ∧ (Instr.mov 0 256).inRange = true := by decide

theorem test_config_refuses_narrow_port : ({ Config.default with opw := 7 } : Config).wf = false := by decide

theorem test_front_end_refuses_small_integers : ({ intMax := 1023 } : FrontEnd).wf = false := by decide

theorem test_memory_wf_refuses_unsorted : ¬ Memory.wf [(1, 0), (0, 0)] ∧ ¬ Memory.wf [(0, 0), (0, 1)] := by decide

/-! ## Decoding: a word of each instruction written out from 30_encoding.md R57 -/

/-- `0001dd00 iiiiiiii`, dd = 10, i = 10000000. -/
theorem test_decode_mov : decode [0b00011000, 0b10000000] = .instr (.mov 2 128) [] := by decide
/-- `0010ddss`, dd = 01, ss = 10. -/
theorem test_decode_add : decode [0b00100110] = .instr (.add 1 2) [] := by decide
/-- `0011ddss`, dd = 01, ss = 11. -/
theorem test_decode_sub : decode [0b00110111] = .instr (.sub 1 3) [] := by decide
/-- `0100ddss`, dd = 10, ss = 11. -/
theorem test_decode_mult : decode [0b01001011] = .instr (.mult 2 3) [] := by decide
/-- `0101ddss`, dd = 01, ss = 00. -/
theorem test_decode_div : decode [0b01010100] = .instr (.div 1 0) [] := by decide
/-- `0111ddss`, dd = 10, ss = 01. -/
theorem test_decode_xor : decode [0b01111001] = .instr (.xor 2 1) [] := by decide
/-- `1000ddss`, dd = 00, ss = 11. -/
theorem test_decode_cmp : decode [0b10000011] = .instr (.cmp 0 3) [] := by decide
/-- `1101ss00`, ss = 10. -/
theorem test_decode_out : decode [0b11011000] = .instr (.out 2) [] := by decide
/-- `1110dd00`, dd = 11. -/
theorem test_decode_in : decode [0b11101100] = .instr (.inp 3) [] := by decide
/-- `11111111`, also when a byte follows. -/
theorem test_decode_hlt : decode [0b11111111, 0x21] = .instr .hlt [0x21] := by decide

/-- R63, R66: what the strict decoder rejects. -/
theorem test_decode_rejects :
    decode [] = .rejected .noByte ∧ decode [0x14] = .rejected .loneMovWord ∧
    decode [0x11, 0] = .rejected (.fieldR1NotZero 1) ∧ decode [0xD1] = .rejected (.fieldR1NotZero 13) ∧
    decode [0xE2] = .rejected (.fieldR1NotZero 14) ∧ decode [0x00] = .rejected (.unassignedOpcode 0) ∧
    decode [0x6B] = .rejected (.unassignedOpcode 6) ∧ decode [0x90] = .rejected (.unassignedOpcode 9) ∧
    decode [0xC0] = .rejected (.unassignedOpcode 12) ∧ decode [0xF0] = .rejected (.unassignedOpcode 15) := by decide

/-- 95_test_vectors.md P1: the stream and its two readings. -/
theorem test_stream_P1 :
    encodeSeq .field [.mov 0 5, .mov 1 7, .add 0 1, .out 0, .hlt] = [0x10, 0x05, 0x14, 0x07, 0x21, 0xD0, 0xFF] ∧
    decStream [0x10, 0x05, 0x14, 0x07, 0x21, 0xD0, 0xFF] = .instrs [.mov 0 5, .mov 1 7, .add 0 1, .out 0, .hlt] ∧
    decOpcodes [0x10, 0x05, 0x14, 0x07, 0x21, 0xD0, 0xFF] = [1, 1, 2, 13, 15] := by decide

/-- 95_test_vectors.md P3: the two modes part. -/
theorem test_stream_P3 :
    encodeSeq .field [.mov 5 1024, .add 4 7, .out 9, .hlt] = [0x14, 0x00, 0x23, 0xD4, 0xFF] ∧
    encodeSeq .byte [.mov 5 1024, .add 4 7, .out 9, .hlt] = [0x14, 0x00, 0x37, 0xF4, 0xFF] ∧
    decOpcodes [0x14, 0x00, 0x37, 0xF4, 0xFF] = [1, 3, 15, 15] := by decide

/-- `invalid(p)` names the position of the byte rejected: a lone Mov word at offset 2. -/
theorem test_stream_invalid_position : decStream [0x10, 0x00, 0x14] = .invalid 2 .loneMovWord := by decide

/-! ## Steps of single instructions, from reset -/

/-- What a next state shows: the bytes put out, `ph`, `imm_hold`, `ipos`, `opos`. -/
def shows : Host.Outcome State Fault Refusal → Option (List Byte × Phase × Byte × Nat × Nat)
  | .next t => some (t.out.bytes, t.ph, t.immHold, t.ipos, t.opos)
  | .refused _ => none

/-- A block loaded with a sequence, in a mode. -/
def loaded (m : NarrowMode) (is : List Instr) : State :=
  State.load { Config.default with narrowMode := m } (is.map Instr.record)

/-- R90: `mov r1, 7` is `14 07`; the word first. -/
theorem test_step_mov : shows (step (State.reset.withFetchWord 16 0x0714)) = some ([0x14], .pending, 0x07, 1, 1) := by
  decide
/-- 95_test_vectors.md 3.1: `mov r8, 300` holds `2C`; under `BYTE` its word is `30`. -/
theorem test_step_mov_out_of_range :
    shows (step (loaded .field [.mov 8 300])) = some ([0x10], .pending, 0x2C, 1, 1) ∧
    shows (step (loaded .byte [.mov 8 300])) = some ([0x30], .pending, 0x2C, 1, 1) := by decide
theorem test_step_add : shows (step (State.reset.withFetchWord 8 0x26)) = some ([0x26], .idle, 0, 1, 1) := by decide
theorem test_step_add_out_of_range :
    shows (step (loaded .field [.add 0 255])) = some ([0x23], .idle, 0, 1, 1) ∧
    shows (step (loaded .byte [.add 0 255])) = some ([0xFF], .idle, 0, 1, 1) := by decide
theorem test_step_sub : shows (step (loaded .field [.sub 3 1])) = some ([0x3D], .idle, 0, 1, 1) := by decide
theorem test_step_sub_byte : shows (step (loaded .byte [.sub 0 7])) = some ([0x37], .idle, 0, 1, 1) := by decide
theorem test_step_mult : shows (step (loaded .field [.mult 3 2])) = some ([0x4E], .idle, 0, 1, 1) := by decide
theorem test_step_mult_byte : shows (step (loaded .byte [.mult 6 1])) = some ([0x59], .idle, 0, 1, 1) := by decide
theorem test_step_div : shows (step (loaded .field [.div 1 0])) = some ([0x54], .idle, 0, 1, 1) := by decide
theorem test_step_div_byte : shows (step (loaded .byte [.div 0 8])) = some ([0x58], .idle, 0, 1, 1) := by decide
theorem test_step_xor : shows (step (loaded .field [.xor 3 0])) = some ([0x7C], .idle, 0, 1, 1) := by decide
theorem test_step_xor_byte : shows (step (loaded .byte [.xor 1 15])) = some ([0x7F], .idle, 0, 1, 1) := by decide
theorem test_step_cmp : shows (step (loaded .field [.cmp 3 0])) = some ([0x8C], .idle, 0, 1, 1) := by decide
theorem test_step_cmp_byte : shows (step (loaded .byte [.cmp 4 4])) = some ([0x94], .idle, 0, 1, 1) := by decide
theorem test_step_out : shows (step (loaded .field [.out 2])) = some ([0xD8], .idle, 0, 1, 1) := by decide
theorem test_step_out_byte : shows (step (loaded .byte [.out 12])) = some ([0xF0], .idle, 0, 1, 1) := by decide
theorem test_step_in : shows (step (loaded .field [.inp 3])) = some ([0xEC], .idle, 0, 1, 1) := by decide
theorem test_step_in_byte : shows (step (loaded .byte [.inp 5])) = some ([0xF4], .idle, 0, 1, 1) := by decide
theorem test_step_hlt : shows (step (State.reset.withFetchWord 8 0xFF)) = some ([0xFF], .idle, 0, 1, 1) := by decide

/-! ## Cycles -/

/-- A block with the immediate 7 of `mov r1, 7` pending, and a `hlt` to follow. -/
def midMov : State :=
  { loaded .field [.mov 1 7, .hlt] with ph := .pending, immHold := 7, ipos := 1, opos := 1, out := [(0, 0x14)] }

/-- A block that has not been reset since power-up. -/
def powerUp : State := { loaded .field [.hlt] with resetDone := false }

/-- A state in one given cycle. -/
def inCycle (p : Pins) (s : State) : State := { s with pins := [p] }

def resetPins : Pins := { rst := true, offer := true, outReady := true }
def sinkBusy : Pins := { rst := false, offer := true, outReady := false }
def noOffer : Pins := { rst := false, offer := false, outReady := true }

/-- R143: the DRAIN emits the held byte, although `hlt` is offered. -/
theorem test_drain : shows (step midMov) = some ([0x14, 0x07], .idle, 7, 1, 2) := by decide
/-- R184: no step while the sink is not ready. -/
theorem test_stall : shows (step (inCycle sinkBusy midMov)) = some ([0x14], .pending, 7, 1, 1) := by decide
/-- R180, R181: a reset drops the pending byte and empties `OUT`; the cut is recorded. -/
theorem test_reset_cycle :
    (match step (inCycle resetPins midMov) with
      | .next t => some (t.out, t.ph, t.ipos, t.opos, t.cutRun)
      | .refused _ => none) = some ([], .idle, 0, 0, true) := by decide
/-- R166: tag 12 is refused, beside tag 9, which is accepted. -/
theorem test_reserved_tag :
    step (State.reset.present { tag := 12, dest := 0, source := 0 }) = .refused (.reservedTag 12) ∧
    shows (step (State.reset.present { tag := 9, dest := 3, source := 1024 })) = some ([0xFF], .idle, 0, 1, 1) :=
  ⟨rfl, by decide⟩
/-- R188: use before the first reset is refused. -/
theorem test_before_reset : step powerUp = .refused .usedBeforeReset := rfl
/-- 95_test_vectors.md 3.4: `Out{source: 2}` with 3 on the unused port is still `D8`. -/
theorem test_unused_port :
    State.outByte (State.reset.present { tag := 7, dest := 3, source := 2 }) = some 0xD8 := by decide
/-- R15: the ROM rows as bits. -/
theorem test_rom_bits : [Variant.mov, .add, .xor, .out, .inp, .hlt].map (fun v => (rom v).bits) =
    [0x111, 0x092, 0x097, 0x02D, 0x01E, 0x200] := by decide

/-- R25, R169: in a cycle in which nothing is offered the model gives `out_byte` no value. -/
theorem test_no_offer_no_byte :
    State.outByte (inCycle noOffer (loaded .field [.hlt])) = none ∧ State.outByte (loaded .field [.hlt]) = some 0xFF := by
  decide
/-- R12: the tags of Add and Sub at the port. -/
theorem test_tags_at_the_port :
    State.outByte (State.load Config.default [{ tag := 1, dest := 0, source := 0 }]) = some 0x20 ∧
    State.outByte (State.load Config.default [{ tag := 2, dest := 0, source := 0 }]) = some 0x30 := by decide

/-! ## The front end (95_test_vectors.md sections 1, 5 and 6) -/

/-- A Line Parser with a 16-bit integer type. -/
def fe : FrontEnd := { intMax := 65535 }

/-- P2: comments, blank lines, mixed case, loose spacing. -/
theorem test_parse_P2 :
    parse fe [] "# read\nMOV R2, 255\n\n  in r3\nxor r2 , r3\nCmp r2,r3\nout r2\nHLT\n".toList =
      .instrs [.mov 2 255, .inp 3, .xor 2 3, .cmp 2 3, .out 2, .hlt] := by decide
/-- E1: the failure is reported at line 2. -/
theorem test_parse_E1 : parse fe ['s'] "mov r0, 0\nbadop r1, r2\nadd r0, r1".toList =
    .failed { sourceName := ['s'], line := 2, cause := .unknownOperand "badop".toList } := by decide
/-- P6: physically the fourth line, reported as line 2. -/
theorem test_parse_P6 : parse fe ['s'] "# header\nmov r0, 1\n\nadd r0, 5\nhlt".toList =
    .failed { sourceName := ['s'], line := 2, cause := .mustBeRegister ['5'] } := by decide
theorem test_parse_lines :
    ["add 0, r1", "add rx, r1", "mov r0, r1", "mov r0", "add r0", "mul r0, r1", "  HLT  ", "   add   r0 ,  r1  ",
      "# anything", "  ", "add r0, r1 # c"].map (fun l => parseLine fe l.toList) =
    [.invalid (.mustBeRegister ['0']), .invalid (.mustBeRegister ['r', 'x']), .invalid (.mustBeNumber ['r', '1']),
      .invalid .missingOperand, .invalid .missingOperand, .invalid (.unknownOperand ['m', 'u', 'l']), .instr .hlt,
      .instr (.add 0 1), .skipped, .skipped, .invalid (.mustBeRegister "r1 # c".toList)] := by decide
/-- R70, R72: white space around operand tokens is ignored, a tab as well, when a space ends the mnemonic. -/
theorem test_parse_white_space :
    ["add r0,\tr1", "add r0 ,\tr1\t", "add \tr0, r1", "\u00A0add r0, r1\u2003"].map (fun l => parseLine fe l.toList) =
    [.instr (.add 0 1), .instr (.add 0 1), .instr (.add 0 1), .instr (.add 0 1)] := by decide
/-- R71, R74 to R76: what fails, whatever else stands on the line. -/
theorem test_parse_failures :
    ["mov r0, 5\t# c", "add r0, r1 # é", "badop r1,\tr2", "é r1, r2", "out r5z", "out r0 r1", "out r-5", "mov r0, -5",
      "mov r0, 5z", "badop r1\r"].map (fun l => parseLine fe l.toList) =
    [.invalid (.mustBeNumber "5\t# c".toList), .invalid (.mustBeRegister "r1 # é".toList),
      .invalid (.unknownOperand "badop".toList), .invalid (.unknownOperand ['é']),
      .invalid (.mustBeRegister "r5z".toList), .invalid (.mustBeRegister "r0 r1".toList),
      .invalid (.negativeInteger "r-5".toList), .invalid (.negativeInteger "-5".toList),
      .invalid (.mustBeNumber "5z".toList), .invalid (.unknownOperand "badop".toList)] := by decide
/-- R83: open points are refused by name. -/
theorem test_parse_open_points :
    ["add r0, r1, r2", "hlt now", "add", "add\tr0, r1", "mov r0, 0x10", "mov r0, 007", "mov r0, +5", "mov r0, 1_000",
      "add r0,", "out r", "out r 5", "add 0, 1", "hlt\r", "mov r0, 65536"].map (fun l => parseLine fe l.toList) =
    [.notSettled .extraOperands, .notSettled .hltTrailing, .notSettled .noOperandList, .notSettled .tabSeparator,
      .notSettled .integerSpelling, .notSettled .integerSpelling, .notSettled .integerSpelling,
      .notSettled .integerSpelling, .notSettled .emptyOperand, .notSettled .bareRegister, .notSettled .bareRegister,
      .notSettled .operandCheckOrder, .notSettled .lineTerminator, .notSettled .integerOverflow] := by decide
theorem test_spell : spell (.mov 1 1024) = "mov r1, 1024".toList ∧ spell (.inp 2) = "in r2".toList := by decide

/-! ## Witnesses: states and operands that meet the hypotheses of the statements -/

theorem witness_RomRowsAsBits : 10 ≤ (10 : BitVec 4).toNat ∧ 10 ≤ (15 : BitVec 4).toNat := by decide
theorem witness_NarrowModesAgree :
    (15 ≤ 15 ∧ 3 ≤ 3 ∧ 3 ≤ 3) ∧ (Instr.add 3 3).inRange = true := by decide
theorem witness_EncodingReadsLowOperandBits :
    3 % 4 = 7 % 4 ∧ 63 % 64 = 127 % 64 ∧ 255 % 256 = 511 % 256 ∧ 8 ≤ 8 := by decide
theorem witness_SplitInvertsPackField : (15 ≤ 15 ∧ 3 ≤ 3 ∧ 3 ≤ 3) ∧ split 0xFF = (15, 3, 3) := by decide
theorem witness_DecOpcodesRecoversOpcodes : ∀ i ∈ ([.mov 3 255, .cmp 3 3, .hlt] : List Instr), i.inRange = true := by
  decide
theorem witness_DecStreamInvertsEncodeSeq :
    (∀ i ∈ ([.mov 3 255, .cmp 3 3, .hlt] : List Instr), i.wf = true) ∧
    decStream [0x1C, 0xFF, 0x8F, 0xFF] = .instrs [.mov 3 255, .cmp 3 3, .hlt] := by decide
theorem witness_DecodeEncodeRoundTrip : (Instr.mov 3 255).wf = true ∧ (Instr.cmp 3 3).wf = true := by decide
theorem witness_LengthIsToldByFirstByte :
    (NarrowMode.field = .field ∨ (Instr.mov 4 0).inRange = true) ∧
    (NarrowMode.byte = .field ∨ (Instr.mov 3 0).inRange = true) := by decide
theorem witness_BoundaryBytesAreExactlyThese :
    firstByteRange (0x6F : Word).toNat = false ∧ firstByteRange (0xFE : Word).toNat = false ∧
    8 ∈ [2, 3, 4, 5, 7, 8] ∧ 14 ∈ [1, 13, 14] := by decide
/-- For MovEmitsWordThenImmediate, the TwoRegister, OneRegister and Hlt statements. -/
theorem witness_idle : State.reset.ph = .idle ∧ (loaded .byte [.hlt]).ph = .idle ∧
    (encode .field .hlt).head? = some 0xFF := by decide
/-- For PendingImmediateGoesBeforeAnyInstruction. -/
theorem witness_pending : midMov.ph = .pending ∧ midMov.resetDone = true ∧ midMov.pin.rst = false := by decide
/-- For InstructionFrame, in both phases. -/
theorem witness_InstructionFrame :
    (∃ t, exec (.mov 1 7) State.reset = .next t) ∧ (∃ t, exec .hlt State.reset = .next t) ∧
    ∃ t, exec .hlt midMov = .next t := ⟨⟨_, rfl⟩, ⟨_, rfl⟩, ⟨_, rfl⟩⟩
/-- For StepRunsTheOfferedInstruction and the first and third clauses of AcceptCycleFollowsTheRomRow, at tag 9. -/
theorem witness_StepRunsTheOfferedInstruction :
    let s := loaded .field [.hlt]
    s.resetDone = true ∧ s.pin.rst = false ∧ s.pin.outReady = true ∧ s.pin.offer = true ∧ s.ph = .idle ∧
    s.offered = some Instr.hlt.record ∧ Instr.hlt.record.instr s.cfg.opw = some .hlt ∧
    Variant.ofTag Instr.hlt.record.tag = some .hlt ∧ Instr.hlt.record.tag.toNat ≤ 9 := by decide
theorem witness_PlacedWordIsRunNext :
    State.reset.cfg.wf = true ∧ decodeTableWord 16 0xFF1C = some (.mov 3 255) ∧ decodeTableWord 8 0x10 = some (.mov 0 0) :=
  by decide
/-- The second clause, at tag 10, and the last, for AcceptCycleFollowsTheRomRow. -/
theorem witness_AcceptCycleFollowsTheRomRow :
    let r : PortRecord := { tag := 10, dest := 0, source := 0 }
    let s := State.load Config.default [r]
    s.resetDone = true ∧ s.pin.rst = false ∧ s.pin.outReady = true ∧ s.pin.offer = true ∧ s.ph = .idle ∧
    s.offered = some r ∧ 10 ≤ r.tag.toNat ∧ (loaded .field [.hlt]).action = .accept .hlt := by decide
theorem witness_DrainCycleEmitsTheHeldByte :
    midMov.ph = .pending ∧ midMov.resetDone = true ∧ midMov.pin.rst = false ∧ midMov.pin.outReady = true := by decide
theorem witness_ResetCycleRestartsTheBlock :
    (inCycle resetPins midMov).pin.rst = true ∧ (inCycle resetPins powerUp).pin.rst = true := by decide
theorem witness_ResetRecordsACutRun :
    (∃ t, step (inCycle resetPins midMov) = .next t) ∧ (inCycle resetPins midMov).pin.rst = true ∧
    (∃ t, step midMov = .next t) ∧ midMov.pin.rst = false := ⟨⟨_, rfl⟩, rfl, ⟨_, rfl⟩, rfl⟩
theorem witness_StalledCycleChangesNothing :
    (inCycle sinkBusy midMov).pin.rst = false ∧ (inCycle sinkBusy midMov).pin.outReady = false ∧
    (inCycle noOffer State.reset).resetDone = true ∧ (inCycle noOffer State.reset).ph = .idle ∧
    (inCycle noOffer State.reset).inValid = false := by decide
theorem witness_ResetStateValues :
    sinkBusy.rst = false ∧ Pins.ready.rst = false ∧ Pins.ready.offer = true ∧ [Instr.hlt.record].head? = some Instr.hlt.record ∧
    Variant.ofTag Instr.hlt.record.tag = some .hlt := by decide
theorem witness_TransfersHappenTogether : State.reset.ph = .idle ∧ midMov.ph = .pending := by decide
/-- For OutByteIsWhatIsAppended and PositionsCountTransfers, with and without a transfer. -/
theorem witness_OutByteIsWhatIsAppended :
    (∃ t, step midMov = .next t) ∧ midMov.pin.rst = false ∧ midMov.outTransfer = true ∧
    (∃ t, step (inCycle sinkBusy midMov) = .next t) ∧ (inCycle sinkBusy midMov).outTransfer = false ∧
    (∃ t, step (loaded .field [.hlt]) = .next t) ∧ (loaded .field [.hlt]).inTransfer = true :=
  ⟨⟨_, rfl⟩, rfl, rfl, ⟨_, rfl⟩, rfl, ⟨_, rfl⟩, rfl⟩
theorem witness_UnusedPortsAreNotObserved :
    let r : PortRecord := { tag := 7, dest := 3, source := 2 }
    let r' : PortRecord := { tag := 7, dest := 0, source := 2 }
    let s := State.load Config.default [r]
    s.offered = some r ∧ r'.tag = r.tag ∧ (r.tag ≠ 7 → r.tag ≠ 9 → r'.dest = r.dest) ∧
    (r.tag ≠ 8 → r.tag ≠ 9 → r'.source = r.source) ∧ ∃ t, step s = .next t :=
  ⟨rfl, rfl, by decide, by decide, _, rfl⟩
theorem witness_HoldRegisterIsNotReadBeforeWritten :
    (loaded .field [.mov 1 7]).ph = .idle ∧ ∃ t, step (loaded .field [.mov 1 7]) = .next t ∧ t.ph = .pending :=
  ⟨rfl, _, rfl, rfl⟩
theorem witness_StepRefusesOnlyBrokenDuties :
    midMov.HostDuty ∧ (loaded .field [.hlt]).HostDuty ∧ step powerUp = .refused .usedBeforeReset :=
  ⟨by decide, by decide, rfl⟩
/-- For StepKeepsCanonicalOutput, StepKeepsStreamShape, OutputIsAppendOnly and InputAndConfigAreFixed. -/
theorem witness_StepKeepsStreamShape :
    midMov.Inv ∧ midMov.out.wf ∧ midMov.pin.rst = false ∧ ∃ t, step midMov = .next t :=
  ⟨by decide, by decide, rfl, _, rfl⟩
theorem witness_LaunchHasStreamShape : (loaded .byte [.mov 1 7, .hlt]).Launch := by decide
theorem witness_StepKeepsAgreementWithEncodeSeq : midMov.Inv ∧ midMov.Agrees ∧ ∃ t, step midMov = .next t :=
  ⟨by decide, ⟨rfl, [], 1, 7, rfl, by decide, by decide⟩, _, rfl⟩
/-- A block at the end of a run. -/
def done : State := { loaded .field [.hlt] with ipos := 1, opos := 1, out := [(0, 0xFF)] }
theorem witness_CompleteStateIsFinal :
    done.complete = true ∧ done.resetDone = true ∧ done.pin.rst = false ∧ midMov.ph = .pending ∧ done.Agrees :=
  ⟨by decide, rfl, rfl, rfl, rfl, rfl⟩
/-- For CompleteRunOutputsEncodeSeq, with a schedule that stalls first. -/
theorem witness_CompleteRunOutputsEncodeSeq :
    Config.default.wf = true ∧
    ∃ t, Host.Core.run Sys2Proof.core 2
      { State.load Config.default ([Instr.hlt].map Instr.record) with pins := [sinkBusy], pinsAfter := Pins.ready } =
        .next t ∧ t.complete = true := ⟨by decide, _, rfl, by decide⟩
theorem witness_OutputDoesNotDependOnSchedule :
    let s := loaded .field [.hlt]
    let s' := inCycle sinkBusy s
    s.Launch ∧ s'.Launch ∧ s.cfg = s'.cfg ∧ s.input = s'.input ∧
    (∃ t, Host.Core.run Sys2Proof.core 1 s = .next t ∧ t.complete = true) ∧
    ∃ t, Host.Core.run Sys2Proof.core 2 s' = .next t ∧ t.complete = true :=
  ⟨by decide, by decide, rfl, rfl, ⟨_, rfl, by decide⟩, ⟨_, rfl, by decide⟩⟩
/-- A run whose first cycle resets the block with `ph` = 0, and accepts a Mov in the second. -/
theorem witness_LaunchedRunIsNeverRefused :
    let s := inCycle resetPins (loaded .field [.mov 1 7])
    s.LaunchRun 2 ∧ s.cutRun = false := by
  refine ⟨⟨by decide, ?_⟩, rfl⟩
  intro j hj u hu _
  match j with
  | 0 => cases hu; rfl
  | 1 => cases hu; rfl
  | n + 2 => omega
/-- For the three clauses of RunsComplete: a fair schedule with stalls, a fair environment after it, and a run that is
too short. -/
theorem witness_RunsComplete :
    Config.default.wf = true ∧ (∀ p ∈ [sinkBusy, Pins.ready, noOffer], p.rst = false) ∧
    [Instr.hlt].length + movCount [Instr.hlt] ≤ ([sinkBusy, Pins.ready, noOffer].filter Pins.moves).length ∧
    Pins.ready.moves = true ∧ 0 < [Instr.hlt].length + movCount [Instr.hlt] ∧
    ∃ t, Host.Core.run Sys2Proof.core 0 (State.load Config.default ([Instr.hlt].map Instr.record)) = .next t :=
  ⟨by decide, by decide, by decide, by decide, by decide, _, rfl⟩
/-- A sink that is never ready again, and a host that never offers again. -/
theorem witness_UnfairEnvironmentStallsForever :
    let s : State := { midMov with pinsAfter := sinkBusy }
    let s' : State := { loaded .field [.hlt] with pinsAfter := noOffer }
    s.pins = [] ∧ s.pinsAfter.rst = false ∧ s.pinsAfter.outReady = false ∧
    s'.pins = [] ∧ s'.pinsAfter.rst = false ∧ s'.pinsAfter.offer = false ∧ s'.ph = .idle ∧ s'.resetDone = true := by
  decide
/-- Both outcomes of CanonicalSpellingParsesBack. -/
theorem witness_CanonicalSpellingParsesBack :
    [Instr.out 3, .hlt].all (Instr.operandsUpTo 3) = true ∧ [Instr.out 4, .hlt].all (Instr.operandsUpTo 3) = false := by
  decide
/-- With lines before and after the failing one, and with none. -/
theorem witness_FirstFailingLineIsReported :
    parse fe [] (List.intercalate ['\n'] ["hlt".toList]) = .instrs [.hlt] ∧
    parse fe [] (List.intercalate ['\n'] []) = .instrs [] ∧ '\n' ∉ "mul r0, r1".toList ∧
    parseLine fe "mul r0, r1".toList = .invalid (.unknownOperand "mul".toList) := by decide
theorem witness_OneInstructionPerLineNotSkipped :
    parse fe [] "# c\n\nhlt".toList = .instrs [.hlt] ∧
    ∀ l ∈ splitAll '\n' "# c\n  ".toList, trim l = [] ∨ (trim l).head? = some '#' := by decide
theorem witness_FailedParseStartsNothing :
    Config.default.wf = true ∧ parse fe [] "hlt".toList = .instrs [.hlt] ∧
    parse fe [] "foo".toList = .failed { sourceName := [], line := 1, cause := .unknownOperand "foo".toList } := by decide
theorem witness_OperandValidation :
    '0' ≠ 'r' ∧ ('.' ∈ "1.5".toList ∧ '.'.isAlphanum = false ∧ isBlank '.' = false ∧ '.' ≠ '_' ∧ '.' ≠ '+' ∧ '.' ≠ '-' ∧
      "1.5".toList.head? ≠ some 'r') ∧ 65535 ≤ fe.intMax ∧ fe.wf = true ∧ 1024 ≤ 1024 :=
  ⟨by decide, by decide, Nat.le_refl _, rfl, Nat.le_refl _⟩
theorem witness_UnknownMnemonicFails :
    'M' ≠ '#' ∧ (∀ x ∈ "Mul".toList, isBlank x = false ∧ isLineEnd x = false) ∧
    variantOfMnemonic ("Mul".toList.map Char.toLower) = none := ⟨by decide, by simp [isBlank, isLineEnd], by decide⟩

end Sys2Proof.Tests
end

section
/-! PROOFS. The statements about the state and the signals (10_state.md): the tags and the ROM rows, the state after
reset, the transfers and what they count, and the two values no cycle observes. First the equations they rest on: the
signals in each phase, the step for each kind of cycle, and how a state update passes through a cycle. -/

namespace Sys2Proof

/-! ## Tags and ROM rows -/

/-- A tag of 10 or more names no variant (R12). -/
theorem Variant.ofTag_eq_none : ∀ {t : BitVec 4}, 10 ≤ t.toNat → Variant.ofTag t = none := by decide

/-- The bits of the ROM row each of the tags 0 to 9 addresses (R14, R15). -/
theorem romRowBits_of_tags :
    ([0, 1, 2, 3, 4, 5, 6, 7, 8, 9] : List (BitVec 4)).map (fun t => (Variant.ofTag t).map fun v => (rom v).bits) =
      [some 0x111, some 0x092, some 0x093, some 0x094, some 0x095, some 0x097, some 0x098, some 0x02D, some 0x01E,
        some 0x200] := by decide

/-- The instruction a record presents does not depend on the port its variant does not use (R13). -/
theorem PortRecord.instr_congr_unused {r r' : PortRecord} (htag : r'.tag = r.tag)
    (hdest : r.tag ≠ 7 → r.tag ≠ 9 → r'.dest = r.dest) (hsource : r.tag ≠ 8 → r.tag ≠ 9 → r'.source = r.source)
    (w : Nat) : r'.instr w = r.instr w := by
  simp only [PortRecord.instr, htag]
  cases hv : Variant.ofTag r.tag with
  | none => rfl
  | some v =>
    rw [Variant.ofTag_eq_some] at hv
    cases v <;> simp_all [Variant.tag, Instr.ofVariant]

end Sys2Proof

namespace Sys2Proof.Machine

variable {s t : State} {r : PortRecord} {i : Instr}

/-! ## The signals in each phase -/

theorem State.inReady_of_idle (hp : s.ph = .idle) : s.inReady = (s.pin.outReady && !s.pin.rst) := by
  simp [State.inReady, hp]

theorem State.inReady_of_pending (hp : s.ph = .pending) : s.inReady = false := by
  simp [State.inReady, hp]

theorem State.outValid_of_idle (hp : s.ph = .idle) : s.outValid = (s.inValid && !s.pin.rst) := by
  rw [State.outValid, hp]; rfl

theorem State.outValid_of_pending (hp : s.ph = .pending) : s.outValid = !s.pin.rst := by
  simp [State.outValid, hp]

theorem State.outByte_of_pending (hp : s.ph = .pending) : s.outByte = some s.immHold := by
  simp [State.outByte, hp]

/-- `out_byte` for an offered record whose tag has a ROM row (R25). -/
theorem State.outByte_of_row {v : Variant} (hp : s.ph = .idle) (hv : s.inValid = true) (ho : s.offered = some r)
    (htag : Variant.ofTag r.tag = some v) :
    s.outByte = some ((rom v).firstByte s.cfg.narrowMode (portValue s.cfg.opw r.dest) (portValue s.cfg.opw r.source)) := by
  simp [State.outByte, hp, hv, ho, htag]

/-- A multiplexer never selects a port the variant does not use, so the ports `exec` reads give the same first byte. -/
theorem firstByte_portsOf_ofVariant (m : NarrowMode) (v : Variant) (d n : Nat) :
    (rom (Instr.ofVariant v d n).variant).firstByte m (portsOf (Instr.ofVariant v d n)).1
      (portsOf (Instr.ofVariant v d n)).2 = (rom v).firstByte m d n := by
  cases v <;> rfl

/-- With `ph` = 0 `out_byte` sees the record on the ports only through the instruction it presents. -/
theorem State.outByte_of_idle (hp : s.ph = .idle) :
    s.outByte = if s.inValid then
      (s.offered.bind (PortRecord.instr s.cfg.opw)).map fun i =>
        (rom i.variant).firstByte s.cfg.narrowMode (portsOf i).1 (portsOf i).2
      else none := by
  simp only [State.outByte, hp]
  cases s.offered with
  | none => rfl
  | some r =>
    simp only [Option.bind_some, PortRecord.instr, Option.map_map, Function.comp_def, firstByte_portsOf_ofVariant]

/-! ## The transfers in each kind of cycle -/

/-- With `ph` = 0 the two channels transfer together (R25). -/
theorem State.inTransfer_eq_outTransfer (hp : s.ph = .idle) : s.inTransfer = s.outTransfer := by
  rw [State.inTransfer, State.outTransfer, State.inReady_of_idle hp, State.outValid_of_idle hp, Bool.and_assoc,
    Bool.and_comm s.pin.outReady]

theorem State.inTransfer_of_pending (hp : s.ph = .pending) : s.inTransfer = false := by
  simp [State.inTransfer, State.inReady_of_pending hp]

theorem State.outTransfer_of_pending (hp : s.ph = .pending) : s.outTransfer = (!s.pin.rst && s.pin.outReady) := by
  simp [State.outTransfer, State.outValid_of_pending hp]

/-- No output transfer completes in a stalled cycle. -/
theorem State.outTransfer_of_stall (h : s.action = .stall) : s.outTransfer = false := by
  rcases s.action_cases with ⟨ha, -⟩ | ⟨-, -, hbusy | ⟨-, hp, hno⟩⟩ | ⟨ha, -⟩ |
      ⟨-, -, -, ⟨ha, -⟩ | ⟨-, -, r, -, ⟨ha, -⟩ | ⟨i, ha, -⟩⟩⟩
  case inr.inl.inl => simp [State.outTransfer, hbusy]
  case inr.inl.inr =>
    have hv : s.inValid = false := by rcases hno with hno | hno <;> simp [State.inValid, hno]
    simp [State.outTransfer, State.outValid_of_idle hp, hv]
  all_goals simp [h] at ha

/-- No input transfer completes in a stalled cycle. -/
theorem State.inTransfer_of_stall (h : s.action = .stall) : s.inTransfer = false := by
  cases hp : s.ph with
  | idle => rw [State.inTransfer_eq_outTransfer hp, State.outTransfer_of_stall h]
  | pending => exact State.inTransfer_of_pending hp

/-- What stands on the pins in a DRAIN cycle (R143). -/
theorem State.pins_of_drain (h : s.action = .drain) : s.pin.rst = false ∧ s.pin.outReady = true := by
  rcases s.action_cases with ⟨ha, -⟩ | ⟨ha, -⟩ | ⟨ha, -⟩ | ⟨hr, hrdy, -⟩
  case inr.inr.inr => exact ⟨hr, hrdy⟩
  all_goals simp [h] at ha

/-- What stands on the pins in an ACCEPT cycle (R142). -/
theorem State.pins_of_accept (h : s.action = .accept i) :
    s.pin.rst = false ∧ s.pin.outReady = true ∧ s.inValid = true := by
  rcases s.action_cases with ⟨ha, -⟩ | ⟨ha, -⟩ | ⟨ha, -⟩ | ⟨hr, hrdy, -, ⟨ha, -⟩ | ⟨-, hoff, r, ho, -⟩⟩
  case inr.inr.inr.inr => exact ⟨hr, hrdy, by simp [State.inValid, hoff, ho]⟩
  all_goals simp [h] at ha

theorem State.outTransfer_of_drain (hp : s.ph = .pending) (h : s.action = .drain) : s.outTransfer = true := by
  obtain ⟨hr, hrdy⟩ := State.pins_of_drain h
  simp [State.outTransfer_of_pending hp, hr, hrdy]

theorem State.outTransfer_of_accept (hp : s.ph = .idle) (h : s.action = .accept i) : s.outTransfer = true := by
  obtain ⟨hr, hrdy, hv⟩ := State.pins_of_accept h
  simp [State.outTransfer, State.outValid_of_idle hp, hr, hrdy, hv]

/-! ## The step for each kind of cycle -/

theorem step_of_rst (h : s.pin.rst = true) : step s = .next s.tick.applyReset := by
  simp [step, State.action, h]

theorem step_of_stall (h : s.action = .stall) : step s = .next s.tick := by
  simp [step, h]

theorem step_of_drain (h : s.action = .drain) : step s = .next s.tick.drain := by
  simp [step, h]

theorem step_of_accept (hp : s.ph = .idle) (h : s.action = .accept i) :
    step s = .next (s.tick.accept i.variant (portsOf i).1 (portsOf i).2) := by
  simp [step, h, exec_eq_offer, State.offer_idle (s := s.tick) hp]

/-! ## Updates that pass through a cycle -/

/-- ACCEPT neither reads nor writes the input sequence. -/
theorem State.accept_with_input (l : List PortRecord) (v : Variant) (d n : Nat) :
    State.accept v d n { s with input := l } = { s.accept v d n with input := l } := by
  cases v <;> rfl

/-- ACCEPT does not read the hold register, and only a row with a trailing byte overwrites it. -/
theorem State.accept_with_immHold (b : Byte) (v : Variant) (d n : Nat) :
    State.accept v d n { s with immHold := b } =
      { s.accept v d n with immHold := if (rom v).tb then (s.accept v d n).immHold else b } := by
  cases v <;> rfl

/-! ## Another record in the place of the one offered -/

/-- The state with another record at `IN[ipos]`. -/
def State.replaceOffered (s : State) (r' : PortRecord) : State := { s with input := s.input.set s.ipos r' }

@[simp] theorem State.replaceOffered_cfg (r' : PortRecord) : (s.replaceOffered r').cfg = s.cfg := rfl
@[simp] theorem State.replaceOffered_resetDone (r' : PortRecord) : (s.replaceOffered r').resetDone = s.resetDone := rfl
@[simp] theorem State.replaceOffered_ph (r' : PortRecord) : (s.replaceOffered r').ph = s.ph := rfl
@[simp] theorem State.replaceOffered_immHold (r' : PortRecord) : (s.replaceOffered r').immHold = s.immHold := rfl
@[simp] theorem State.replaceOffered_pin (r' : PortRecord) : (s.replaceOffered r').pin = s.pin := rfl

theorem State.replaceOffered_offered (ho : s.offered = some r) (r' : PortRecord) :
    (s.replaceOffered r').offered = some r' := by
  obtain ⟨hlt, -⟩ := List.getElem?_eq_some_iff.mp ho
  simp [State.offered, State.replaceOffered, hlt]

/-- The kind of the cycle sees the record on the ports only through its tag and the instruction it presents. -/
theorem State.replaceOffered_action {r' : PortRecord} (ho : s.offered = some r) (htag : r'.tag = r.tag)
    (hi : r'.instr s.cfg.opw = r.instr s.cfg.opw) : (s.replaceOffered r').action = s.action := by
  simp [State.action, State.replaceOffered_offered ho, ho, hi, htag]

/-- `out_byte` sees the record on the ports only through the instruction it presents. -/
theorem State.replaceOffered_outByte {r' : PortRecord} (ho : s.offered = some r)
    (hi : r'.instr s.cfg.opw = r.instr s.cfg.opw) : (s.replaceOffered r').outByte = s.outByte := by
  have ho' := State.replaceOffered_offered ho r'
  have hv : (s.replaceOffered r').inValid = s.inValid := by simp [State.inValid, ho', ho]
  cases hp : s.ph with
  | pending => simp [State.outByte_of_pending, hp]
  | idle => simp [State.outByte_of_idle, hp, hv, ho', ho, hi]

end Sys2Proof.Machine

namespace Sys2Proof.Machine

/-- Settles O8: sixteen tags, evaluated. -/
theorem romRowsAsBits : Obligations.RomRowsAsBits :=
  ⟨by decide, fun _ => Variant.ofTag_eq_none, romRowBits_of_tags⟩

/-- Settles O32: the fields of the reset state, and the signals' equations for `ph` = 0. -/
theorem resetStateValues : Obligations.ResetStateValues := by
  refine ⟨rfl, rfl, rfl, rfl, romRowBits_of_tags, ?_⟩
  intro input p rest hrst s
  have hp : s.ph = .idle := rfl
  have hpin : s.pin = p := rfl
  refine ⟨by simp [State.outValid_of_idle hp, hpin, hrst], by simp [State.inReady_of_idle hp, hpin, hrst], ?_⟩
  intro r v hoff hhead htag
  have ho : s.offered = some r := by rw [← hhead, List.head?_eq_getElem?]; rfl
  have hv : s.inValid = true := by simp [State.inValid, hpin, hoff, ho]
  exact State.outByte_of_row hp hv ho htag

/-- Settles O33: neither `valid` reads its own channel's `ready`, nor the other way round. -/
theorem transfersHappenTogether : Obligations.TransfersHappenTogether :=
  ⟨fun _ => State.inTransfer_eq_outTransfer, fun _ => State.inTransfer_of_pending, fun _ _ _ _ => ⟨rfl, rfl⟩⟩

/-- Settles O34, by the kinds of cycle that answer a next state. -/
theorem outByteIsWhatIsAppended : Obligations.OutByteIsWhatIsAppended := by
  intro s t h hrst
  rcases step_next_cases h with ⟨hr, -⟩ | ⟨-, ha, rfl⟩ | ⟨-, hp, ha, rfl⟩ | ⟨-, hp, r, i, ho, hi, ha, rfl⟩
  · simp [hrst] at hr
  · simp [State.outTransfer_of_stall ha]
  · simp [State.outTransfer_of_drain hp ha, State.outByte_of_pending hp]
  · obtain ⟨-, -, hv⟩ := State.pins_of_accept ha
    simp [State.outTransfer_of_accept hp ha, State.outByte_of_idle hp, hv, ho, hi]

/-- Settles O35, by the kinds of cycle that answer a next state. -/
theorem positionsCountTransfers : Obligations.PositionsCountTransfers := by
  intro s t h hrst
  rcases step_next_cases h with ⟨hr, -⟩ | ⟨-, ha, rfl⟩ | ⟨-, hp, ha, rfl⟩ | ⟨-, hp, r, i, -, -, ha, rfl⟩
  · simp [hrst] at hr
  · simp [State.inTransfer_of_stall ha, State.outTransfer_of_stall ha]
  · simp [State.inTransfer_of_pending hp, State.outTransfer_of_drain hp ha]
  · simp [State.inTransfer_eq_outTransfer hp, State.outTransfer_of_accept hp ha]

/-- Settles O36: the record is seen only through its tag and the instruction it presents, and a record that differs on
an unused port presents the same one. -/
theorem unusedPortsAreNotObserved : Obligations.UnusedPortsAreNotObserved := by
  intro s t r r' ho htag hdest hsource
  have hi := PortRecord.instr_congr_unused htag hdest hsource s.cfg.opw
  refine ⟨State.replaceOffered_outByte ho hi, fun h => ?_⟩
  change step (s.replaceOffered r') = _
  have hact := State.replaceOffered_action ho htag hi
  rcases step_next_cases h with ⟨hr, rfl⟩ | ⟨-, ha, rfl⟩ | ⟨-, -, ha, rfl⟩ | ⟨-, hp, -, i, -, -, ha, rfl⟩
  · exact step_of_rst hr
  · exact step_of_stall (hact.trans ha)
  · exact step_of_drain (hact.trans ha)
  · rw [step_of_accept (s := s.replaceOffered r') hp (hact.trans ha), ← State.accept_with_input]
    rfl

/-- Settles O37: with `ph` = 0 a reset cycle and the ACCEPT of a Mov overwrite the hold register, and every other cycle
leaves `ph` = 0. -/
theorem holdRegisterIsNotReadBeforeWritten : Obligations.HoldRegisterIsNotReadBeforeWritten := by
  intro s t b hidle h
  rcases step_next_cases h with ⟨hr, rfl⟩ | ⟨-, ha, rfl⟩ | ⟨-, hp, -⟩ | ⟨-, hp, -, i, -, -, ha, rfl⟩
  · exact ⟨_, step_of_rst hr, rfl, fun _ => rfl⟩
  · exact ⟨_, step_of_stall ha, rfl, by simp [hidle]⟩
  · simp [hidle] at hp
  · refine ⟨_, step_of_accept hp ha, ?_⟩
    rw [show State.tick { s with immHold := b } = { s.tick with immHold := b } from rfl, State.accept_with_immHold]
    refine ⟨rfl, fun hpend => ?_⟩
    have htb : (rom i.variant).tb = true := by simpa [hidle] using hpend
    rw [if_pos htb]

end Sys2Proof.Machine
end

section
/-! PROOFS. The statements about the output stream and the input sequence (20_memory.md): the shape of `OUT`, that it
only grows, that the input is fixed, and that the final `OUT` depends on the input alone. The last one rests on the
agreement of `OUT` with `EncSeq` (44_sequence_and_steps.md R144), which is proved here as a step lemma. -/

namespace Sys2Proof

/-! ## The bytes of an encoding -/

/-- An instruction encodes to as many bytes as it contributes (R33). -/
theorem encode_length (m : NarrowMode) (i : Instr) : (encode m i).length = i.size := by
  cases i <;> rfl

/-- `Enc` through the layout ROM (R140): the output multiplexer's byte, then the immediate where the row has a trailing
byte. -/
theorem encode_eq_firstByte (m : NarrowMode) (i : Instr) :
    encode m i = (rom i.variant).firstByte m (Machine.portsOf i).1 (Machine.portsOf i).2 ::
      if (rom i.variant).tb then [imm8 (Machine.portsOf i).2] else [] := by
  cases i <;> rfl

/-- Only the row of Mov has a trailing byte (R14). -/
theorem Instr.eq_mov_of_tb {i : Instr} (h : (rom i.variant).tb = true) : ∃ d v, i = .mov d v := by
  cases i with
  | mov d v => exact ⟨d, v, rfl⟩
  | _ => cases h

end Sys2Proof

namespace Sys2Proof.Machine

variable {s t : State} {r : PortRecord} {i : Instr} {m m' : Memory} {n n' k : Nat}

/-! ## Streams contiguous from offset 0 -/

/-- `Emit` keeps a stream contiguous from offset 0. -/
theorem Memory.offsets_write_next (h : m.map Prod.fst = List.range n) (b : Byte) :
    (m.write n b).map Prod.fst = List.range (n + 1) := by
  rw [Memory.write_next b h, List.map_append, h, List.range_succ]
  rfl

/-- `Emit` puts its byte after the bytes of a stream that is contiguous from offset 0. -/
theorem Memory.bytes_write_next (h : m.map Prod.fst = List.range n) (b : Byte) :
    (m.write n b).bytes = m.bytes ++ [b] := by
  rw [Memory.write_next b h, Memory.bytes_append, Memory.bytes_single]

/-- A stream that is contiguous from offset 0 is determined by its bytes. -/
theorem Memory.eq_of_bytes_eq (h : m.map Prod.fst = List.range n) (h' : m'.map Prod.fst = List.range n')
    (hb : m.bytes = m'.bytes) : m = m' := by
  have hlen : m.length = m'.length := by simpa [Memory.bytes] using congrArg List.length hb
  have hn : m.length = n := by simpa using congrArg List.length h
  have hn' : m'.length = n' := by simpa using congrArg List.length h'
  have hfst : m.map Prod.fst = m'.map Prod.fst := by rw [h, h', ← hn, ← hn', hlen]
  rw [← List.zip_unzip m, ← List.zip_unzip m', List.unzip_eq_map, List.unzip_eq_map, hfst]
  exact congrArg _ hb

/-! ## The shape of the stream -/

theorem State.ipos_lt_of_offered (h : s.offered = some r) : s.ipos < s.input.length :=
  (List.getElem?_eq_some_iff.mp h).1

/-- Every step keeps the shape of the stream: a reset cycle starts it again, DRAIN and ACCEPT write at its end. -/
theorem step_keeps_inv (hinv : s.Inv) (h : step s = .next t) : t.Inv := by
  obtain ⟨hout, hipos⟩ := hinv
  rcases step_next_cases h with ⟨-, rfl⟩ | ⟨-, -, rfl⟩ | ⟨-, -, -, rfl⟩ | ⟨-, -, r, i, ho, -, -, rfl⟩
  · exact ⟨rfl, Nat.zero_le _⟩
  · exact ⟨hout, hipos⟩
  · exact ⟨Memory.offsets_write_next hout _, hipos⟩
  · have hlt := State.ipos_lt_of_offered ho
    exact ⟨by simpa using Memory.offsets_write_next hout _, by simpa using hlt⟩

/-- No step writes the input sequence or the configuration, and each uses up one entry of the schedule (R27, R35). -/
theorem step_keeps_input_cfg (h : step s = .next t) :
    t.input = s.input ∧ t.cfg = s.cfg ∧ t.pins = s.pins.tail ∧ t.pinsAfter = s.pinsAfter := by
  rcases step_next_cases h with ⟨-, rfl⟩ | ⟨-, -, rfl⟩ | ⟨-, -, -, rfl⟩ | ⟨-, -, r, i, -, -, -, rfl⟩ <;>
    simp

/-! ## Agreement with the reference function -/

/-- What has been accepted after an ACCEPT: the instruction the offered record presents comes last. -/
theorem State.acceptedInstrs_accept (ho : s.offered = some r) (hi : r.instr s.cfg.opw = some i) (v : Variant)
    (d n : Nat) : (s.accept v d n).acceptedInstrs = s.acceptedInstrs ++ [i] := by
  rw [State.offered] at ho
  simp [State.acceptedInstrs, List.take_add_one, ho, hi]

theorem State.agrees_iff_of_idle (hp : s.ph = .idle) :
    s.Agrees ↔ s.acceptedInstrs.length = s.ipos ∧ s.out.bytes = encodeSeq s.cfg.narrowMode s.acceptedInstrs := by
  rw [State.Agrees, hp]

theorem State.agrees_iff_of_pending (hp : s.ph = .pending) :
    s.Agrees ↔ s.acceptedInstrs.length = s.ipos ∧ ∃ before d v, s.acceptedInstrs = before ++ [.mov d v] ∧
      s.out.bytes = encodeSeq s.cfg.narrowMode before ++ [pack s.cfg.narrowMode 1 d 0] ∧ s.immHold = imm8 v := by
  rw [State.Agrees, hp]

/-- The agreement does not speak of the schedule. -/
theorem State.agrees_tick : s.tick.Agrees ↔ s.Agrees := Iff.rfl

/-- A block that has just been reset agrees: nothing is accepted and nothing is put out. -/
theorem State.agrees_of_start (hp : s.ph = .idle) (hipos : s.ipos = 0) (hout : s.out = []) : s.Agrees := by
  rw [State.agrees_iff_of_idle hp]
  simp [State.acceptedInstrs, hipos, hout, Memory.bytes]

/-- DRAIN completes the encoding of the Mov accepted last (R143). -/
theorem State.agrees_drain (hinv : s.Inv) (hp : s.ph = .pending) (h : s.Agrees) : s.drain.Agrees := by
  obtain ⟨hlen, before, d, v, hacc, hbytes, himm⟩ := (State.agrees_iff_of_pending hp).mp h
  refine (State.agrees_iff_of_idle (State.drain_ph s)).mpr ⟨hlen, ?_⟩
  calc s.drain.out.bytes = s.out.bytes ++ [s.immHold] := Memory.bytes_write_next hinv.1 _
    _ = encodeSeq s.cfg.narrowMode (before ++ [.mov d v]) := by simp [hbytes, himm, encodeSeq_append, encode]
    _ = encodeSeq s.cfg.narrowMode s.acceptedInstrs := by rw [hacc]

/-- ACCEPT puts out the first byte of the instruction's encoding and, where a second one is owed, holds it (R142). -/
theorem State.agrees_accept (hinv : s.Inv) (hp : s.ph = .idle) (ho : s.offered = some r)
    (hi : r.instr s.cfg.opw = some i) (h : s.Agrees) :
    (s.accept i.variant (portsOf i).1 (portsOf i).2).Agrees := by
  obtain ⟨hlen, hbytes⟩ := (State.agrees_iff_of_idle hp).mp h
  have hacc := State.acceptedInstrs_accept ho hi i.variant (portsOf i).1 (portsOf i).2
  have hlen' : (s.acceptedInstrs ++ [i]).length = s.ipos + 1 := by simp [hlen]
  cases htb : (rom i.variant).tb with
  | true =>
    obtain ⟨d, v, rfl⟩ := Instr.eq_mov_of_tb htb
    refine (State.agrees_iff_of_pending rfl).mpr ⟨?_, s.acceptedInstrs, d, v, hacc, ?_, rfl⟩
    · rw [hacc, hlen', State.accept_ipos]
    · rw [State.accept_out, State.accept_cfg, Memory.bytes_write_next hinv.1, hbytes]
      rfl
  | false =>
    refine (State.agrees_iff_of_idle (by simp [htb, hp])).mpr ⟨?_, ?_⟩
    · rw [hacc, hlen', State.accept_ipos]
    · rw [State.accept_out, State.accept_cfg, Memory.bytes_write_next hinv.1, hacc, hbytes]
      simp [encodeSeq_append, encode_eq_firstByte, htb]

/-- Every step keeps the agreement of `OUT` with `EncSeq`, in both phases (R144). -/
theorem step_keeps_agrees (hinv : s.Inv) (hag : s.Agrees) (h : step s = .next t) : t.Agrees := by
  rcases step_next_cases h with ⟨-, rfl⟩ | ⟨-, -, rfl⟩ | ⟨-, hp, -, rfl⟩ | ⟨-, hp, r, i, ho, hi, -, rfl⟩
  · exact State.agrees_of_start rfl rfl rfl
  · exact State.agrees_tick.mpr hag
  · exact State.agrees_drain (s := s.tick) hinv hp (State.agrees_tick.mpr hag)
  · exact State.agrees_accept (s := s.tick) hinv hp ho hi (State.agrees_tick.mpr hag)

/-- In a complete state that agrees, `OUT` holds the encoding of all of `IN` (R145). -/
theorem State.bytes_of_complete (hag : s.Agrees) (hc : s.complete = true) :
    s.out.bytes = encodeSeq s.cfg.narrowMode (s.input.filterMap (PortRecord.instr s.cfg.opw)) := by
  obtain ⟨hp, hipos⟩ : s.ph = .idle ∧ s.ipos = s.input.length := by simpa [State.complete] using hc
  obtain ⟨-, hbytes⟩ := (State.agrees_iff_of_idle hp).mp hag
  rw [hbytes, State.acceptedInstrs, hipos, List.take_length]

/-! ## Runs from a launch state -/

theorem State.inv_of_launch (h : s.Launch) : s.Inv := by
  obtain ⟨-, -, hout, hipos, hopos, -⟩ := h
  exact ⟨by simp [hout, hopos], by simp [hipos]⟩

theorem State.agrees_of_launch (h : s.Launch) : s.Agrees := by
  obtain ⟨-, hp, hout, hipos, -⟩ := h
  exact State.agrees_of_start hp hipos hout

/-- Every state of a run has the input and the configuration the run started with (R27, R35). -/
theorem run_keeps_input_cfg (h : Host.Core.run Sys2Proof.core k s = .next t) : t.input = s.input ∧ t.cfg = s.cfg := by
  refine run_keeps (fun u => u.input = s.input ∧ u.cfg = s.cfg) ?_ k s t ⟨rfl, rfl⟩ h
  intro u w hu hstep
  obtain ⟨hinput, hcfg, -⟩ := step_keeps_input_cfg hstep
  exact ⟨hinput.trans hu.1, hcfg.trans hu.2⟩

/-- Every state of a run from a launch state has the shape of the stream and agrees with `EncSeq` (R144). -/
theorem run_inv_agrees_of_launch (hl : s.Launch) (h : Host.Core.run Sys2Proof.core k s = .next t) :
    t.Inv ∧ t.Agrees :=
  run_keeps (fun u => u.Inv ∧ u.Agrees)
    (fun _ _ hu hstep => ⟨step_keeps_inv hu.1 hstep, step_keeps_agrees hu.1 hu.2 hstep⟩)
    k s t ⟨State.inv_of_launch hl, State.agrees_of_launch hl⟩ h

/-- A complete run from a launch state has put out the encoding of the input it started with. -/
theorem bytes_of_complete_run (hl : s.Launch) (h : Host.Core.run Sys2Proof.core k s = .next t)
    (hc : t.complete = true) :
    t.out.bytes = encodeSeq s.cfg.narrowMode (s.input.filterMap (PortRecord.instr s.cfg.opw)) := by
  obtain ⟨hinput, hcfg⟩ := run_keeps_input_cfg h
  rw [State.bytes_of_complete (run_inv_agrees_of_launch hl h).2 hc, hinput, hcfg]

end Sys2Proof.Machine

namespace Sys2Proof.Machine

/-- Settles O40, by the kinds of cycle that answer a next state. -/
theorem stepKeepsStreamShape : Obligations.StepKeepsStreamShape :=
  fun _ _ => step_keeps_inv

/-- Settles O39: a write keeps the offsets rising wherever it falls, so no premise on `opos` is needed. -/
theorem stepKeepsCanonicalOutput : Obligations.StepKeepsCanonicalOutput := by
  intro s t hwf h
  rcases step_next_cases h with ⟨-, rfl⟩ | ⟨-, -, rfl⟩ | ⟨-, -, -, rfl⟩ | ⟨-, -, r, i, -, -, -, rfl⟩
  · exact Memory.wf_nil
  · exact hwf
  · exact State.drain_wf (s := s.tick) hwf
  · exact State.accept_wf (s := s.tick) hwf _ _ _

/-- Settles O42: DRAIN and ACCEPT write at `opos`, which is the end of a contiguous stream. -/
theorem outputIsAppendOnly : Obligations.OutputIsAppendOnly := by
  intro s t hinv hrst h
  have happend (b : Byte) : s.out.write s.opos b = s.out ++ [(s.opos, b)] := Memory.write_next b hinv.1
  rcases step_next_cases h with ⟨hr, -⟩ | ⟨-, -, rfl⟩ | ⟨-, -, -, rfl⟩ | ⟨-, -, r, i, -, -, -, rfl⟩
  · simp [hrst] at hr
  · exact ⟨[], by simp, by simp, by simp⟩
  · exact ⟨[_], happend _, le_rfl, rfl⟩
  · exact ⟨[_], (State.accept_out ..).trans (happend _), le_rfl, State.accept_opos ..⟩

/-- Settles O43, by the kinds of cycle that answer a next state. -/
theorem inputAndConfigAreFixed : Obligations.InputAndConfigAreFixed :=
  fun _ _ => step_keeps_input_cfg

/-- Settles O47: both outputs are contiguous from offset 0 and hold the encoding of the one input. -/
theorem outputDoesNotDependOnSchedule : Obligations.OutputDoesNotDependOnSchedule := by
  intro s s' k k' t t' hl hl' hcfg hinput hrun hrun' hc hc'
  obtain ⟨⟨hout, -⟩, -⟩ := run_inv_agrees_of_launch hl hrun
  obtain ⟨⟨hout', -⟩, -⟩ := run_inv_agrees_of_launch hl' hrun'
  refine Memory.eq_of_bytes_eq hout hout' ?_
  rw [bytes_of_complete_run hl hrun hc, bytes_of_complete_run hl' hrun' hc', hcfg, hinput]

/-- Settles O15, by the concatenation law of `EncSeq` and the length of an encoding. -/
theorem bytesStandAtTheirOffset : Obligations.BytesStandAtTheirOffset := by
  intro m before after i
  have hsplit : encodeSeq m (before ++ i :: after) = encodeSeq m before ++ (encode m i ++ encodeSeq m after) := by
    rw [encodeSeq_append, encodeSeq_cons]
  exact ⟨hsplit, by rw [hsplit, List.drop_left, List.take_left' (encode_length m i)]⟩

end Sys2Proof.Machine
end

section
/-! PROOFS. The statements about words, encodings and their decoding (30_encoding.md sections 2 to 5): the two packings
by their fields and where they agree, which operand bits an encoding reads, and that the reference decoder and the
encoder are inverse to each other, first for one instruction and then along a stream. A word placed for the next fetch
is run next because the decoder answers normalised instructions only. -/

namespace Sys2Proof

variable {m : NarrowMode} {i : Instr} {w : Word} {is : List Instr} {bs rest : List Byte}

/-! ## The three fields of a word (R51, R61) -/

/-- `Split` in arithmetic (R61). -/
theorem split_eq (w : Word) : split w = (w.toNat / 16, w.toNat / 4 % 4, w.toNat % 4) := by
  have hw : w.toNat < 256 := w.isLt
  have htop : w.toNat / 16 % 16 = w.toNat / 16 := by omega
  simp [split, slice, htop]

/-- A byte is determined by its fields. -/
theorem split_injective : Function.Injective split := by
  intro w w' h
  simp only [split_eq, Prod.mk.injEq] at h
  obtain ⟨htop, hmid, hlow⟩ := h
  exact BitVec.eq_of_toNat_eq (by omega)

/-! ## Packing under `FIELD` (R52) -/

/-- Under `FIELD` the fields do not overlap, so the OR is a sum. -/
theorem packField_toNat (op a b : Nat) : (packField op a b).toNat = 16 * (op % 16) + 4 * (a % 4) + b % 4 := by
  have hop := Nat.mod_lt op (show 16 > 0 by decide)
  have ha := Nat.mod_lt a (show 4 > 0 by decide)
  have hb := Nat.mod_lt b (show 4 > 0 by decide)
  simp only [packField, trunc, Nat.reducePow, or_fields _ _ _ ha hb, BitVec.toNat_ofNat]
  omega

@[simp] theorem split_packField (op a b : Nat) : split (packField op a b) = (op % 16, a % 4, b % 4) := by
  rw [split_eq, packField_toNat]
  simp only [Prod.mk.injEq]
  omega

/-- Packing the fields of a byte gives the byte (R61). -/
theorem packField_split (w : Word) : packField (split w).1 (split w).2.1 (split w).2.2 = w := by
  have hw : w.toNat < 256 := w.isLt
  apply BitVec.eq_of_toNat_eq
  simp only [packField_toNat, split_eq]
  omega

theorem packField_of_split {o a b : Nat} (h : split w = (o, a, b)) : packField o a b = w := by
  simpa [h] using packField_split w

/-! ## Packing under `BYTE` (R53) -/

/-- Narrowing the operands discards no bit that narrowing the result keeps. -/
theorem packByte_eq (op a b : Nat) : packByte op a b = BitVec.ofNat 8 (op <<< 4 ||| a <<< 2 ||| b) := by
  refine BitVec.eq_of_toNat_eq (Nat.eq_of_testBit_eq fun j => ?_)
  rw [packByte_testBit, BitVec.toNat_ofNat, Nat.testBit_mod_two_pow]
  simp only [Nat.testBit_or, Nat.testBit_shiftLeft, ge_iff_le]

/-- Packing under `BYTE` is the OR of three bytes. -/
theorem packByte_eq_or (op a b : Nat) :
    packByte op a b = BitVec.ofNat 8 (16 * op) ||| BitVec.ofNat 8 (4 * a) ||| BitVec.ofNat 8 b := by
  rw [packByte_eq, BitVec.ofNat_or, BitVec.ofNat_or, Nat.shiftLeft_eq, Nat.shiftLeft_eq, mul_comm op, mul_comm a]

/-- The fields of a word packed under `BYTE`: each ORs the bits spilled by the values to its right. -/
@[simp] theorem split_packByte (op a b : Nat) : split (packByte op a b) =
    (slice op 3 0 ||| slice a 5 2 ||| slice b 7 4, slice a 1 0 ||| slice b 3 2, slice b 1 0) := by
  simp only [split, Prod.mk.injEq]
  refine ⟨Nat.eq_of_testBit_eq fun j => ?_, Nat.eq_of_testBit_eq fun j => ?_, Nat.eq_of_testBit_eq fun j => ?_⟩ <;>
    simp only [slice_testBit, packByte_testBit, Nat.testBit_or]
  · by_cases hj : j < 4
    · simp [hj, show 4 + j < 8 by omega, show 2 ≤ 4 + j by omega, show 4 + j - 2 = 2 + j by omega]
    · simp [hj]
  · by_cases hj : j < 2
    · simp [hj, show 2 + j < 8 by omega, show ¬ 4 ≤ 2 + j by omega]
    · simp [hj]
  · by_cases hj : j < 2
    · simp [hj, show j < 8 by omega, show ¬ 4 ≤ j by omega, show ¬ 2 ≤ j by omega]
    · simp [hj]

/-- A slice reads no bit from its upper end on. -/
theorem slice_trunc {n hi lo : Nat} (hlo : lo ≤ hi) (hhi : hi < n) (v : Nat) :
    slice (trunc n v) hi lo = slice v hi lo := by
  refine Nat.eq_of_testBit_eq fun j => ?_
  simp only [slice_testBit, trunc, Nat.testBit_mod_two_pow]
  by_cases hj : j < hi - lo + 1
  · simp [show lo + j < n by omega]
  · simp [hj]

/-- Under `BYTE` a word depends on bits 3:0, 5:0 and 7:0 of its values. -/
theorem packByte_trunc (op a b : Nat) : packByte (trunc 4 op) (trunc 6 a) (trunc 8 b) = packByte op a b := by
  apply split_injective
  simp [slice_trunc]

/-! ## Where the two modes agree (R54) -/

/-- The modes agree exactly where no spilled bit changes a field. -/
theorem packField_eq_packByte_iff (op a b : Nat) : packField op a b = packByte op a b ↔
    (slice op 3 0 ||| slice a 5 2 ||| slice b 7 4 = slice op 3 0 ∧ slice a 1 0 ||| slice b 3 2 = slice a 1 0) := by
  rw [← split_injective.eq_iff, split_packField, split_packByte]
  simp [slice, eq_comm]

/-- In range nothing spills. -/
theorem packField_eq_packByte {op a b : Nat} (ha : a < 4) (hb : b < 4) : packField op a b = packByte op a b := by
  have ha52 : slice a 5 2 = 0 := by simp [slice]; omega
  have hb74 : slice b 7 4 = 0 := by simp [slice]; omega
  have hb32 : slice b 3 2 = 0 := by simp [slice]; omega
  simp [packField_eq_packByte_iff, ha52, hb74, hb32]

/-- An in-range instruction has one encoding. -/
theorem encode_byte_of_inRange (h : i.inRange = true) : encode .byte i = encode .field i := by
  cases i <;> simp_all [Instr.inRange, encode, pack, packField_eq_packByte]

theorem encodeSeq_byte_of_inRange (h : ∀ i ∈ is, i.inRange = true) : encodeSeq .byte is = encodeSeq .field is := by
  induction is with
  | nil => rfl
  | cons i is ih =>
    rw [List.forall_mem_cons] at h
    rw [encodeSeq_cons, encodeSeq_cons, encode_byte_of_inRange h.1, ih h.2]

/-! ## Encoding reads the low bits of the operands (R55, R58) -/

@[simp] theorem imm8_toNat (s : Nat) : (imm8 s).toNat = s % 256 := by
  simp [imm8, trunc]

theorem imm8_congr {v v' : Nat} (h : v % 256 = v' % 256) : imm8 v = imm8 v' :=
  BitVec.eq_of_toNat_eq (by simpa using h)

theorem packField_congr {op a b a' b' : Nat} (ha : a % 4 = a' % 4) (hb : b % 4 = b' % 4) :
    packField op a b = packField op a' b' :=
  split_injective (by simp [ha, hb])

theorem packByte_congr {op a b a' b' : Nat} (ha : a % 64 = a' % 64) (hb : b % 256 = b' % 256) :
    packByte op a b = packByte op a' b' := by
  rw [← packByte_trunc op a b, ← packByte_trunc op a' b', show trunc 6 a = trunc 6 a' from ha,
    show trunc 8 b = trunc 8 b' from hb]

/-- In both modes a word depends on bits 7:0 of its operands at most. -/
theorem pack_congr {op a b a' b' : Nat} (ha : a % 256 = a' % 256) (hb : b % 256 = b' % 256) :
    pack m op a b = pack m op a' b' := by
  cases m with
  | field => exact packField_congr (by omega) (by omega)
  | byte => exact packByte_congr (by omega) hb

variable {opw k : Nat}

/-- A port of 8 or more bits passes bits 7:0. -/
theorem portValue_mod (hw : 8 ≤ opw) (v : Nat) : portValue opw v % 256 = v % 256 :=
  Nat.mod_mod_of_dvd v (pow_dvd_pow 2 hw)

theorem pack_portValue_left (hw : 8 ≤ opw) (op a b : Nat) : pack m op (portValue opw a) b = pack m op a b :=
  pack_congr (portValue_mod hw a) rfl

theorem pack_portValue_right (hw : 8 ≤ opw) (op a b : Nat) : pack m op a (portValue opw b) = pack m op a b :=
  pack_congr rfl (portValue_mod hw b)

/-- A port of 8 or more bits is not observable in an encoding (R55). -/
theorem encode_onPorts (hw : 8 ≤ opw) (m : NarrowMode) (i : Instr) : encode m (i.onPorts opw) = encode m i := by
  cases i <;>
    simp [Instr.onPorts, encode, pack_portValue_left hw, pack_portValue_right hw, imm8_congr (portValue_mod hw _)]

/-! ## Normalised instructions -/

theorem Instr.inRange_of_wf (h : i.wf = true) : i.inRange = true :=
  ((Bool.and_eq_true ..).mp h).1

theorem Instr.norm_of_wf (h : i.wf = true) : i.norm = i := by
  cases i <;> simp_all [Instr.wf, Instr.inRange, Instr.norm, trunc, Nat.mod_eq_of_lt]

theorem portValue_trunc (hk : k ≤ opw) (v : Nat) : portValue opw (trunc k v) = trunc k v :=
  Nat.mod_eq_of_lt ((Nat.mod_lt v (by positivity)).trans_le (Nat.pow_le_pow_right (by decide) hk))

/-- The operands of a normalised instruction fit a port of 8 or more bits. -/
theorem Instr.onPorts_norm (hw : 8 ≤ opw) (i : Instr) : i.norm.onPorts opw = i.norm := by
  cases i <;> simp [Instr.norm, Instr.onPorts, portValue_trunc hw, portValue_trunc (show 2 ≤ opw by omega)]

/-! ## Decode of encode -/

@[simp] theorem split_hltByte : split 255#8 = (15, 3, 3) := by decide

/-- No other word is the literal byte of Hlt: bits 7:4 of the latter are 15, the opcode of no variant. -/
theorem packField_ne_hltByte {op : Nat} (a b : Nat) (h : op % 16 ≠ 15) : packField op a b ≠ 255#8 := by
  intro he
  have hsplit := split_packField op a b
  rw [he, split_hltByte] at hsplit
  exact h (Prod.mk.inj hsplit).1.symm

/-- Under `FIELD` the decoder reads an encoding back as the instruction normalised. -/
theorem decode_encode (i : Instr) (rest : List Byte) : decode (encode .field i ++ rest) = .instr i.norm rest := by
  cases i <;> simp [encode, pack, decode, packField_ne_hltByte, Instr.norm, trunc]

@[simp] theorem imm8_byte (b : Byte) : imm8 b.toNat = b :=
  BitVec.eq_of_toNat_eq (by simp [Nat.mod_eq_of_lt b.isLt])

/-- What the decoder accepts is an encoding with what follows it: one case per opcode. -/
theorem encode_of_decode (h : decode bs = .instr i rest) : encode .field i ++ rest = bs := by
  obtain _ | ⟨w, tail⟩ := bs
  · cases h
  rcases hs : split w with ⟨o, a, b⟩
  simp only [decode, hs] at h
  split at h
  next hFF => cases h; rw [hFF]; rfl
  rw [← packField_of_split hs]
  split at h
  case h_1 =>
    split at h
    next hb => cases tail <;> cases h; simp [encode, pack, hb]
    next => cases h
  case h_8 | h_9 =>
    split at h
    next hb => cases h; rw [hb]; rfl
    next => cases h
  case h_10 => cases h
  all_goals cases h; rfl

theorem Instr.norm_of_decode (h : decode bs = .instr i rest) : i.norm = i := by
  have hi := decode_encode i rest
  rw [encode_of_decode h, h] at hi
  exact (Decoded.instr.inj hi).1.symm

/-! ## The first byte of an encoding (R60, R63) -/

/-- Bits 7:4 of the first byte are the opcode, 15 for Hlt. -/
theorem encode_first_opcode (i : Instr) : ∃ w tail, encode .field i = w :: tail ∧ (split w).1 = i.opc := by
  cases i <;> exact ⟨_, _, rfl, by simp [pack, Instr.opc]⟩

theorem Instr.size_eq (i : Instr) : i.size = if i.opc = 1 then 2 else 1 := by
  cases i <;> rfl

theorem decOpcodes_encode (i : Instr) (rest : List Byte) :
    decOpcodes (encode .field i ++ rest) = i.opc :: decOpcodes rest := by
  cases i with
  | mov d s => exact decOpcodes_mov _ _ (by simp [pack])
  | _ => simp [encode, pack, Instr.opc, decOpcodes_cons_of_ne]

theorem decOpcodes_encodeSeq (is : List Instr) : decOpcodes (encodeSeq .field is) = is.map Instr.opc := by
  induction is with
  | nil => rfl
  | cons i is ih => rw [encodeSeq_cons, decOpcodes_encode, ih, List.map_cons]

/-! ## Whole streams (R66) -/

/-- A round of `DecStream` that ends well reads an instruction, and the rounds after it end well. -/
theorem decStreamFrom_cons_iff {fuel p : Nat} {tail : List Byte} :
    decStreamFrom (fuel + 1) p (w :: tail) = .instrs is ↔
      ∃ i rest js, decode (w :: tail) = .instr i rest ∧ decStreamFrom fuel (p + instrLength w) rest = .instrs js ∧
        is = i :: js := by
  rw [decStreamFrom]
  cases decode (w :: tail) with
  | rejected e => simp
  | instr i rest =>
    cases hr : decStreamFrom fuel (p + instrLength w) rest <;> simp [hr, eq_comm]

theorem decStreamFrom_encodeSeq (is : List Instr) : ∀ (fuel p : Nat), (encodeSeq .field is).length ≤ fuel →
    decStreamFrom fuel p (encodeSeq .field is) = .instrs (is.map Instr.norm) := by
  induction is with
  | nil => intro fuel p _; cases fuel <;> rfl
  | cons i is ih =>
    intro fuel p hfuel
    obtain ⟨w, tail, hw, -⟩ := encode_first_opcode i
    have hread := decode_encode i (encodeSeq .field is)
    simp only [encodeSeq_cons, hw, List.cons_append, List.length_cons, List.length_append] at hread hfuel ⊢
    obtain _ | fuel := fuel
    · omega
    · exact decStreamFrom_cons_iff.mpr ⟨_, _, _, hread, ih _ _ (by omega), rfl⟩

/-- Whatever `DecStream` accepts is the encoding of what it answers. -/
theorem encodeSeq_of_decStreamFrom : ∀ (fuel p : Nat) (bs : List Byte) (is : List Instr),
    decStreamFrom fuel p bs = .instrs is → encodeSeq .field is = bs
  | _, _, [], _, h => by simp only [decStreamFrom] at h; cases h; rfl
  | 0, _, _ :: _, _, h => by cases h
  | fuel + 1, p, w :: tail, is, h => by
    obtain ⟨i, rest, js, hread, hstream, rfl⟩ := decStreamFrom_cons_iff.mp h
    rw [encodeSeq_cons, encodeSeq_of_decStreamFrom fuel _ _ _ hstream, encode_of_decode hread]

/-! ## What spilled bits can make of a word under `BYTE` (R63) -/

/-- Spilled bits only set bits, so the opcode's own bits stay set. -/
theorem packByte_and_opcode (op a b : Nat) :
    packByte op a b &&& BitVec.ofNat 8 (16 * op) = BitVec.ofNat 8 (16 * op) := by
  rw [packByte_eq_or, BitVec.or_assoc, BitVec.and_comm]
  exact BitVec.eq_of_getLsbD_eq fun j _ => by simpa using .inl

/-- With the opcode's bits set, the other bits of a word can come from the operands alone. -/
theorem opcode_or_of_and {u : Word} (h : w &&& u = u) : u ||| w = w := by
  rw [← h]
  exact BitVec.eq_of_getLsbD_eq fun j _ => by simpa using fun hw _ => hw

/-- A two-register opcode can produce every word that has its bits set: the `source` operand alone spills them all. -/
theorem exists_packByte_eq_iff (op : Nat) (w : Word) :
    (∃ d s, packByte op d s = w) ↔ w &&& BitVec.ofNat 8 (16 * op) = BitVec.ofNat 8 (16 * op) := by
  constructor
  · rintro ⟨d, s, rfl⟩
    exact packByte_and_opcode op d s
  · intro h
    refine ⟨0, w.toNat, ?_⟩
    rw [packByte_eq_or]
    simpa using opcode_or_of_and h

/-- With field r1 driven by zero no operand reaches bits 1:0. -/
theorem exists_packByte_zero_eq_iff (op : Nat) (w : Word) :
    (∃ v, packByte op v 0 = w) ↔
      w &&& BitVec.ofNat 8 (16 * op) = BitVec.ofNat 8 (16 * op) ∧ w.toNat % 4 = 0 := by
  constructor
  · rintro ⟨v, rfl⟩
    have hlow := congrArg (fun f => f.2.2) (split_packByte op v 0)
    exact ⟨packByte_and_opcode op v 0, by simpa [split_eq (packByte op v 0), slice] using hlow⟩
  · rintro ⟨h, hlow⟩
    refine ⟨w.toNat / 4, ?_⟩
    rw [packByte_eq_or, Nat.mul_div_cancel' (Nat.dvd_of_mod_eq_zero hlow)]
    simpa using opcode_or_of_and h

end Sys2Proof

namespace Sys2Proof.Machine

/-! ## The bytes at an instruction boundary under `FIELD` (R63) -/

/-- The boundary bytes by their fields: any word of a two-register opcode, a word of a one-register opcode with field r1
zero, and the literal of Hlt. -/
theorem firstByteRange_iff (w : Word) : firstByteRange w.toNat = true ↔
    (split w).1 ∈ [2, 3, 4, 5, 7, 8] ∨ ((split w).1 ∈ [1, 13, 14] ∧ (split w).2.2 = 0) ∨ w = 255#8 := by
  have hw : w.toNat < 256 := w.isLt
  simp [firstByteRange, split_eq, ← BitVec.toNat_inj]
  omega

/-- The first bytes of encodings are exactly the boundary bytes. -/
theorem encode_starts_iff (w : Word) :
    (∃ i tail, encode .field i = w :: tail) ↔ firstByteRange w.toNat = true := by
  rw [firstByteRange_iff]
  constructor
  · rintro ⟨i, tail, h⟩
    cases i <;> obtain ⟨rfl, -⟩ := List.cons.inj h <;> simp [pack]
  · rcases hs : split w with ⟨o, a, b⟩
    obtain rfl := packField_of_split hs
    simp only [List.mem_cons, List.not_mem_nil, or_false]
    rintro ((rfl | rfl | rfl | rfl | rfl | rfl) | ⟨rfl | rfl | rfl, rfl⟩ | h)
    · exact ⟨.add a b, _, rfl⟩
    · exact ⟨.sub a b, _, rfl⟩
    · exact ⟨.mult a b, _, rfl⟩
    · exact ⟨.div a b, _, rfl⟩
    · exact ⟨.xor a b, _, rfl⟩
    · exact ⟨.cmp a b, _, rfl⟩
    · exact ⟨.mov a 0, _, rfl⟩
    · exact ⟨.out a, _, rfl⟩
    · exact ⟨.inp a, _, rfl⟩
    · exact ⟨.hlt, _, by rw [h]; rfl⟩

/-- The decoder rejects every byte that no encoding starts with, since what it accepts is an encoding. -/
theorem decode_rejects {w : Word} (h : firstByteRange w.toNat = false) (rest : List Byte) :
    ∃ e, decode (w :: rest) = .rejected e := by
  cases hread : decode (w :: rest) with
  | rejected e => exact ⟨e, rfl⟩
  | instr i rest' =>
    obtain ⟨u, tail, hu, -⟩ := encode_first_opcode i
    have hbytes := encode_of_decode hread
    rw [hu, List.cons_append] at hbytes
    obtain ⟨rfl, -⟩ := List.cons.inj hbytes
    simp [(encode_starts_iff u).mp ⟨i, tail, hu⟩] at h

/-! ## A word placed for the next fetch -/

/-- The record of an instruction presents it, its operands narrowed to the ports (R11 to R13). -/
theorem record_instr (opw : Nat) (i : Instr) : i.record.instr opw = some (i.onPorts opw) := by
  cases i <;> rfl

theorem State.present_action {s : State} {r : PortRecord} {i : Instr} (h : r.instr s.cfg.opw = some i) :
    (s.present r).action = .accept i := by
  have ho := s.present_offered r
  unfold State.action
  rw [ho]
  simp only [State.pin, State.present, List.headD_cons, Pins.ready, h]
  rfl

/-- Settles O10: each round of the decoder reads back one instruction, and conversely. -/
theorem decStreamInvertsEncodeSeq : Obligations.DecStreamInvertsEncodeSeq := by
  have hnorm (is : List Instr) : decStream (encodeSeq .field is) = .instrs (is.map Instr.norm) :=
    decStreamFrom_encodeSeq is _ _ le_rfl
  refine ⟨hnorm, fun is hwf => ?_, fun bs is => encodeSeq_of_decStreamFrom _ _ bs is⟩
  rw [hnorm, List.map_congr_left fun i hi => Instr.norm_of_wf (hwf i hi), List.map_id']

/-- Settles O11: a well-formed instruction has one encoding in both modes and is its own normalisation. -/
theorem decodeEncodeRoundTrip : Obligations.DecodeEncodeRoundTrip := by
  intro m i rest hwf
  have hread := decode_encode i rest
  rw [Instr.norm_of_wf hwf] at hread
  cases m with
  | field => exact hread
  | byte => rwa [encode_byte_of_inRange (Instr.inRange_of_wf hwf)]

/-- Settles O1, by the fields of the packed word. -/
theorem packFieldMasksEachValue : Obligations.PackFieldMasksEachValue :=
  fun op a b => ⟨rfl, packField_toNat op a b, split_packField op a b⟩

/-- Settles O2: the first clause is the definition, the others are about which bits reach the word. -/
theorem packByteOrsUnmaskedValues : Obligations.PackByteOrsUnmaskedValues := by
  intro op a b
  refine ⟨rfl, ?_, split_packByte op a b, (packByte_trunc op a b).symm⟩
  rw [packByte_eq]
  exact BitVec.eq_of_toNat_eq (Nat.mod_mod _ 256).symm

/-- Settles O3: a byte is its fields, so the two words are equal where their fields are. -/
theorem narrowModesAgree : Obligations.NarrowModesAgree := by
  refine ⟨fun op a b _ ha hb => packField_eq_packByte (by omega) (by omega),
    fun i h => (encode_byte_of_inRange h).symm, packField_eq_packByte_iff, by decide, by decide, fun op => ?_⟩
  simp [packField_eq_packByte_iff, slice]

/-- Settles O4, by the congruences of the packings in the low bits of their operands. -/
theorem encodingReadsLowOperandBits : Obligations.EncodingReadsLowOperandBits :=
  ⟨fun _ _ _ _ _ => packField_congr, fun _ _ _ _ _ => packByte_congr, fun _ _ => imm8_congr,
    fun m i _ hw => encode_onPorts hw m i⟩

/-- Settles O9: under `BYTE` a sequence of in-range instructions has the encoding it has under `FIELD`. -/
theorem decOpcodesRecoversOpcodes : Obligations.DecOpcodesRecoversOpcodes :=
  ⟨decOpcodes_encodeSeq, fun is h => by rw [encodeSeq_byte_of_inRange h, decOpcodes_encodeSeq]⟩

/-- Settles O12: bits 7:4 of the first byte are the opcode, and only the opcode of Mov is 1. -/
theorem lengthIsToldByFirstByte : Obligations.LengthIsToldByFirstByte := by
  intro m i hm
  have hfield : encode m i = encode .field i := by
    cases m with
    | field => rfl
    | byte => exact encode_byte_of_inRange (hm.resolve_left (by decide))
  obtain ⟨w, tail, hw, hop⟩ := encode_first_opcode i
  refine ⟨w, tail, hfield.trans hw, ?_⟩
  rw [encode_length, Instr.size_eq, instrLength, hop]

/-- Settles O13; the count of the 109 bytes is by evaluation. -/
theorem boundaryBytesAreExactlyThese : Obligations.BoundaryBytesAreExactlyThese :=
  ⟨encode_starts_iff, rfl, fun _ rest h => decode_rejects h rest,
    fun op w _ => exists_packByte_eq_iff op w, fun op w _ => exists_packByte_zero_eq_iff op w⟩

/-- Settles O25: a decoded instruction is normalised, so the ports of a legal build pass it unchanged. -/
theorem placedWordIsRunNext : Obligations.PlacedWordIsRunNext := by
  intro s nbits w i hcfg hword
  have hrec : fetchRecord nbits w = i.record := by rw [fetchRecord, hword]
  have hnorm : i.norm = i := by
    unfold decodeTableWord at hword
    split at hword
    next hread => cases hword; exact Instr.norm_of_decode hread
    next => cases hword
  have hports : i.record.instr s.cfg.opw = some i := by
    rw [record_instr, ← hnorm, Instr.onPorts_norm (by simpa [Config.wf] using hcfg)]
  rw [State.withFetchWord, hrec, step, State.present_action hports]
  rfl

/-- Settles O5: the three values are their own remainders in range, and every byte is packed from its fields. -/
theorem splitInvertsPackField : Obligations.SplitInvertsPackField := by
  refine ⟨split_eq, fun op a b hop ha hb => ?_, fun _ _ _ _ => packField_of_split⟩
  rw [split_packField, Nat.mod_eq_of_lt (by omega), Nat.mod_eq_of_lt (by omega), Nat.mod_eq_of_lt (by omega)]

/-- Settles O6: the immediate byte is no packed word. -/
theorem movImmediateIsSourceModulo256 : Obligations.MovImmediateIsSourceModulo256 :=
  fun m d s => ⟨pack m 1 d 0, rfl, imm8_toNat s⟩

/-- Settles O16, by evaluating the decoder on each of the ten words. -/
theorem workedExampleWordsDecode : Obligations.WorkedExampleWordsDecode := by
  unfold Obligations.WorkedExampleWordsDecode
  decide

end Sys2Proof.Machine
end

section
/-! PROOFS. The statements about source lines and texts (30_encoding.md section 7): what is skipped, which line a failed
parse reports, that letter case does not matter, and a first token outside the table. -/

namespace Sys2Proof.Machine

variable {fe : FrontEnd} {name : List Char} {c x : Char} {l r : List Char} {done : Nat}
  {lines : List (List Char)} {i : Instr} {is : List Instr} {cause : Cause}

/-! ## Lower-casing -/

/-- Lower-casing neither makes nor removes a character that is no letter. -/
theorem toLower_eq_iff (hx : x.isAlpha = false) : c.toLower = x ↔ c = x := by
  by_cases hc : c.isUpper
  · have hne {d : Char} (hd : d.isAlpha = c.isAlpha) : d ≠ x := by
      rintro rfl
      simp [Char.isAlpha, hc] at hd hx
      simp [hx] at hd
    simp [hne (Char.isAlpha_toLower_eq_isAlpha c), hne rfl]
  · rw [Char.toLower_eq_of_not_isUpper hc]

/-- What lower-casing leaves unchanged on the 26 capital letters it leaves unchanged everywhere. -/
theorem toLower_invariant {α : Type} (f : Char → α)
    (hf : ∀ k < 26, f (Char.ofNat (65 + k)).toLower = f (Char.ofNat (65 + k))) (c : Char) : f c.toLower = f c := by
  by_cases hc : c.isUpper
  · simp [Char.isUpper, UInt32.le_iff_toNat_le] at hc
    have hk := hf (c.toNat - 65) (by omega)
    rwa [show 65 + (c.toNat - 65) = c.toNat by omega, Char.ofNat_toNat] at hk
  · rw [Char.toLower_eq_of_not_isUpper hc]

@[simp] theorem isBlank_toLower (c : Char) : isBlank c.toLower = isBlank c :=
  toLower_invariant isBlank (by decide) c

@[simp] theorem isLineEnd_toLower (c : Char) : isLineEnd c.toLower = isLineEnd c :=
  toLower_invariant isLineEnd (by decide) c

theorem trim_map_toLower (l : List Char) : trim (l.map Char.toLower) = (trim l).map Char.toLower := by
  have hblank : isBlank ∘ Char.toLower = isBlank := funext isBlank_toLower
  simp only [trim, List.dropWhile_map, hblank, ← List.map_reverse]

theorem splitAll_map_toLower {sep : Char} (hsep : sep.isAlpha = false) (l : List Char) :
    splitAll sep (l.map Char.toLower) = (splitAll sep l).map (List.map Char.toLower) := by
  induction l with
  | nil => rfl
  | cons c cs ih =>
    simp only [List.map_cons, splitAll, toLower_eq_iff hsep, ih]
    split
    · rfl
    · cases splitAll sep cs <;> rfl

/-! ## One line -/

/-- A line that is neither blank nor a comment is trimmed, lower-cased and dispatched (R71). -/
theorem parseLine_eq_dispatchLine (hne : trim l ≠ []) (hc : (trim l).head? ≠ some '#') :
    parseLine fe l = dispatchLine fe ((trim l).map Char.toLower) := by
  rw [parseLine]
  cases h : trim l with
  | nil => exact absurd h hne
  | cons c cs =>
    rw [h] at hc
    exact if_neg fun hcc => hc (by rw [hcc]; rfl)

theorem twoOperands_ne_skipped (v : Variant) (a b : Operand) : twoOperands v a b ≠ .skipped := by
  cases a <;> cases b <;> simp [twoOperands]

theorem oneOperand_ne_skipped (v : Variant) (a : Operand) : oneOperand v a ≠ .skipped := by
  cases a <;> simp [oneOperand]

theorem parseOperands_ne_skipped (v : Variant) (tokens : List (List Char)) :
    parseOperands fe v tokens ≠ .skipped := by
  unfold parseOperands
  repeat' split
  all_goals simp [twoOperands_ne_skipped, oneOperand_ne_skipped]

theorem dispatchTokens_ne_skipped (token : List Char) (operands : Option (List Char)) :
    dispatchTokens fe token operands ≠ .skipped := by
  rw [dispatchTokens]
  repeat' split
  all_goals simp [parseOperands_ne_skipped]

theorem dispatchLine_ne_skipped (line : List Char) : dispatchLine fe line ≠ .skipped := by
  rw [dispatchLine]
  repeat' split
  all_goals simp [dispatchTokens_ne_skipped]

/-- Blank lines and comments, and no other lines, are skipped (R71). -/
theorem parseLine_eq_skipped_iff : parseLine fe l = .skipped ↔ trim l = [] ∨ (trim l).head? = some '#' := by
  by_cases hne : trim l = []
  · simp [parseLine, hne]
  by_cases hc : (trim l).head? = some '#'
  · obtain ⟨cs, hcs⟩ := List.head?_eq_some_iff.mp hc
    simp [parseLine, hcs]
  · simp [parseLine_eq_dispatchLine hne hc, dispatchLine_ne_skipped, hne, hc]

theorem parseLine_map_toLower (l : List Char) : parseLine fe (l.map Char.toLower) = parseLine fe l := by
  rw [parseLine, parseLine, trim_map_toLower]
  cases trim l with
  | nil => rfl
  | cons c cs => simp [toLower_eq_iff (x := '#') rfl, Function.comp_def]

/-! ## Lines in sequence -/

/-- An instruction before what the later lines give. -/
def ParseResult.cons (i : Instr) : ParseResult → ParseResult
  | .instrs is => .instrs (i :: is)
  | .failed d => .failed d
  | .notSettled p => .notSettled p

theorem parseLines_of_skipped (h : parseLine fe l = .skipped) :
    parseLines fe name done (l :: lines) = parseLines fe name done lines := by
  simp [parseLines, h]

theorem parseLines_of_instr (h : parseLine fe l = .instr i) :
    parseLines fe name done (l :: lines) = (parseLines fe name (done + 1) lines).cons i := by
  simp only [parseLines, h]
  cases parseLines fe name (done + 1) lines <;> rfl

theorem parseLines_of_invalid (h : parseLine fe l = .invalid cause) :
    parseLines fe name done (l :: lines) = .failed { sourceName := name, line := done + 1, cause := cause } := by
  simp [parseLines, h]

theorem parseLines_of_notSettled {p : OpenPoint} (h : parseLine fe l = .notSettled p) :
    parseLines fe name done (l :: lines) = .notSettled p := by
  simp [parseLines, h]

/-- Lines that parse begin with one that is skipped or with one that gives the first instruction. -/
theorem parseLines_cons_cases (h : parseLines fe name done (l :: lines) = .instrs is) :
    (parseLine fe l = .skipped ∧ parseLines fe name done lines = .instrs is) ∨
    ∃ i js, parseLine fe l = .instr i ∧ parseLines fe name (done + 1) lines = .instrs js ∧ is = i :: js := by
  cases hl : parseLine fe l with
  | skipped => exact .inl ⟨rfl, by rwa [parseLines_of_skipped hl] at h⟩
  | instr i =>
    rw [parseLines_of_instr hl] at h
    cases hjs : parseLines fe name (done + 1) lines <;> rw [hjs] at h <;> cases h
    exact .inr ⟨i, _, rfl, rfl, rfl⟩
  | invalid c => rw [parseLines_of_invalid hl] at h; cases h
  | notSettled p => rw [parseLines_of_notSettled hl] at h; cases h

/-- One instruction for each line that is not skipped (R79). -/
theorem length_of_parseLines (h : parseLines fe name done lines = .instrs is) :
    is.length = (lines.filter fun l => trim l ≠ [] ∧ (trim l).head? ≠ some '#').length := by
  induction lines generalizing done is with
  | nil => cases h; rfl
  | cons l lines ih =>
    rcases parseLines_cons_cases h with ⟨hl, hrest⟩ | ⟨i, js, hl, hrest, rfl⟩
    · have hskip := parseLine_eq_skipped_iff.mp hl
      rw [ih hrest, List.filter_cons_of_neg (by simpa [← not_or] using hskip)]
    · have hkeep : ¬ (trim l = [] ∨ (trim l).head? = some '#') := by
        rw [← parseLine_eq_skipped_iff (fe := fe), hl]
        simp
      rw [List.length_cons, ih hrest, List.filter_cons_of_pos (by simpa [not_or] using hkeep), List.length_cons]

theorem parseLines_of_all_skipped (h : ∀ l ∈ lines, parseLine fe l = .skipped) :
    parseLines fe name done lines = .instrs [] := by
  induction lines with
  | nil => rfl
  | cons l lines ih =>
    rw [List.forall_mem_cons] at h
    rw [parseLines_of_skipped h.1, ih h.2]

/-- The first failing line is reported under the number of lines parsed before it, plus one (R78). -/
theorem parseLines_of_failing_line {bad : List Char} {after : List (List Char)}
    (h : parseLines fe name done lines = .instrs is) (hbad : parseLine fe bad = .invalid cause) :
    parseLines fe name done (lines ++ bad :: after) =
      .failed { sourceName := name, line := done + is.length + 1, cause := cause } := by
  induction lines generalizing done is with
  | nil => cases h; exact parseLines_of_invalid hbad
  | cons l lines ih =>
    rw [List.cons_append]
    rcases parseLines_cons_cases h with ⟨hl, hrest⟩ | ⟨i, js, hl, hrest, rfl⟩
    · rw [parseLines_of_skipped hl, ih hrest]
    · rw [parseLines_of_instr hl, ih hrest, List.length_cons, Nat.add_right_comm done, Nat.add_assoc done]
      rfl

theorem parseLines_map_toLower (lines : List (List Char)) :
    parseLines fe name done (lines.map (List.map Char.toLower)) = parseLines fe name done lines := by
  induction lines generalizing done with
  | nil => rfl
  | cons l lines ih => simp only [List.map_cons, parseLines, parseLine_map_toLower, ih]

/-! ## Lines of a text -/

/-- A text of joined lines is cut into its lines, as far as the join shows them. -/
theorem splitAll_intercalate_append {sep : Char} {before : List (List Char)} (hne : before ≠ [])
    (line : List Char) (after : List (List Char)) :
    splitAll sep (List.intercalate [sep] (before ++ line :: after)) =
      splitAll sep (List.intercalate [sep] before) ++ splitAll sep (List.intercalate [sep] (line :: after)) := by
  induction before with
  | nil => exact absurd rfl hne
  | cons b bs ih =>
    cases bs with
    | nil => simp [List.intercalate_cons_cons, splitAll_append, List.intercalate_singleton]
    | cons b' bs' =>
      have ih' := ih (by simp)
      simp only [List.cons_append] at ih' ⊢
      simp only [List.intercalate_cons_cons, List.append_assoc, List.singleton_append, splitAll_append, ih']

theorem splitAll_intercalate_cons {sep : Char} (hsep : sep ∉ l) (after : List (List Char)) :
    ∃ rest, splitAll sep (List.intercalate [sep] (l :: after)) = l :: rest := by
  cases after with
  | nil => exact ⟨[], by rw [List.intercalate_singleton, splitAll_of_not_mem hsep]⟩
  | cons a as =>
    exact ⟨_, by rw [List.intercalate_cons_cons, List.append_assoc, List.singleton_append, splitAll_append,
      splitAll_of_not_mem hsep, List.singleton_append]⟩

/-! ## White space around a line -/

theorem dropWhile_blank_append (hne : l ≠ []) (hl : ∀ x ∈ l, isBlank x = false) (r : List Char) :
    (l ++ r).dropWhile isBlank = l ++ r := by
  cases l with
  | nil => exact absurd rfl hne
  | cons c cs => exact List.dropWhile_cons_of_neg (by simp [hl c])

/-- Trimming does not reach into a text that begins with a word. -/
theorem trim_word_append (hne : l ≠ []) (hl : ∀ x ∈ l, isBlank x = false) (r : List Char) :
    trim (l ++ r) = l ++ r.rdropWhile isBlank := by
  have hback : l.reverse.dropWhile isBlank = l.reverse := by
    simpa using dropWhile_blank_append (l := l.reverse) (by simpa) (by simpa) []
  rw [trim, dropWhile_blank_append hne hl, List.reverse_append, List.dropWhile_append, hback, List.rdropWhile]
  split
  next h => simp [List.isEmpty_iff.mp h]
  next => simp

/-- A text that begins and ends with a word is not trimmed. -/
theorem trim_word_append_word {mid : List Char} (hl : l ≠ []) (hr : r ≠ []) (hlb : ∀ x ∈ l, isBlank x = false)
    (hrb : ∀ x ∈ r, isBlank x = false) : trim (l ++ (mid ++ r)) = l ++ (mid ++ r) := by
  have hback : (r.reverse ++ mid.reverse).dropWhile isBlank = r.reverse ++ mid.reverse :=
    dropWhile_blank_append (by simpa) (by simpa) _
  rw [trim_word_append hl hlb, List.rdropWhile, List.reverse_append, hback]
  simp

theorem trim_word (hl : ∀ x ∈ l, isBlank x = false) : trim l = l := by
  cases l with
  | nil => rfl
  | cons c cs => simpa using trim_word_append (l := c :: cs) (by simp) hl []

theorem trim_blank_cons (h : isBlank c = true) (l : List Char) : trim (c :: l) = trim l := by
  rw [trim, trim, List.dropWhile_cons_of_pos h]

/-! ## The first token of a line (R72, R76) -/

theorem splitFirst_of_not_mem {sep : Char} (h : sep ∉ l) : splitFirst sep l = none := by
  induction l with
  | nil => rfl
  | cons c cs ih =>
    simp only [List.mem_cons, not_or] at h
    simp [splitFirst, Ne.symm h.1, ih h.2]

theorem splitFirst_append {sep : Char} (h : sep ∉ l) (r : List Char) :
    splitFirst sep (l ++ sep :: r) = some (l, r) := by
  induction l with
  | nil => simp [splitFirst]
  | cons c cs ih =>
    simp only [List.mem_cons, not_or] at h
    simp [splitFirst, Ne.symm h.1, ih h.2]

theorem dispatchLine_of_space (h : ' ' ∉ l) (r : List Char) :
    dispatchLine fe (l ++ ' ' :: r) = dispatchTokens fe l (some r) := by
  have hhlt : l ++ ' ' :: r ≠ mnemonicOf .hlt := fun he => by
    have hmem : ' ' ∈ mnemonicOf .hlt := he ▸ List.mem_append_right l List.mem_cons_self
    exact absurd hmem (by decide)
  rw [dispatchLine, if_neg hhlt, splitFirst_append h]

theorem dispatchLine_of_no_space (h : ' ' ∉ l) (hhlt : l ≠ mnemonicOf .hlt) :
    dispatchLine fe l = dispatchTokens fe l none := by
  rw [dispatchLine, if_neg hhlt, splitFirst_of_not_mem h]

/-- A token without white space or line ends in it is looked up in the table first. -/
theorem dispatchTokens_unknown (hl : ∀ x ∈ l, isBlank x = false ∧ isLineEnd x = false)
    (hv : variantOfMnemonic l = none) (operands : Option (List Char)) :
    dispatchTokens fe l operands = .invalid (.unknownOperand l) := by
  have hend : l.any isLineEnd = false := List.any_eq_false.mpr fun x hx => by simp [hl x hx]
  have hblank : l.any isBlank = false := List.any_eq_false.mpr fun x hx => by simp [hl x hx]
  simp [dispatchTokens, hend, hblank, hv]

/-- A line whose first token is no mnemonic, up to its end or to the first space. -/
theorem parseLine_unknown {token line : List Char} (hc : c ≠ '#')
    (hword : ∀ x ∈ c :: token, isBlank x = false ∧ isLineEnd x = false)
    (hv : variantOfMnemonic ((c :: token).map Char.toLower) = none) (hline : trim line = c :: token ++ r)
    (hr : r = [] ∨ ∃ r', r = ' ' :: r') :
    parseLine fe line = .invalid (.unknownOperand ((c :: token).map Char.toLower)) := by
  have hlower : ∀ x ∈ (c :: token).map Char.toLower, isBlank x = false ∧ isLineEnd x = false := by
    simpa using hword
  have hspace : ' ' ∉ (c :: token).map Char.toLower := fun h => absurd (hlower _ h).1 (by decide)
  have hhlt : (c :: token).map Char.toLower ≠ mnemonicOf .hlt := fun h => by
    rw [h] at hv
    exact absurd hv (by decide)
  rw [parseLine_eq_dispatchLine (by simp [hline]) (by simp [hline, hc]), hline, List.map_append]
  obtain rfl | ⟨r', rfl⟩ := hr
  · rw [List.map_nil, List.append_nil, dispatchLine_of_no_space hspace hhlt, dispatchTokens_unknown hlower hv]
  · exact (dispatchLine_of_space hspace _).trans (dispatchTokens_unknown hlower hv _)

/-- Settles O50: the lines of the joined text are those before, the failing one, and others. -/
theorem firstFailingLineIsReported : Obligations.FirstFailingLineIsReported := by
  intro fe name bad before after is cause hbefore hnl hbad
  obtain ⟨rest, hrest⟩ := splitAll_intercalate_cons hnl after
  obtain _ | ⟨b, bs⟩ := before
  · cases hbefore
    rw [parse, List.nil_append, hrest]
    exact parseLines_of_invalid hbad
  · rw [parse, splitAll_intercalate_append (by simp), hrest, parseLines_of_failing_line hbefore hbad, Nat.zero_add]

/-- Settles O51, by induction on the lines. -/
theorem oneInstructionPerLineNotSkipped : Obligations.OneInstructionPerLineNotSkipped :=
  ⟨fun _ _ => parseLine_eq_skipped_iff, fun _ _ _ _ => length_of_parseLines,
    fun _ _ _ h => parseLines_of_all_skipped fun l hl => parseLine_eq_skipped_iff.mpr (h l hl)⟩

/-- Settles O52: lower-casing commutes with cutting into lines and with trimming, and is done twice to no effect. -/
theorem parsingIgnoresLetterCase : Obligations.ParsingIgnoresLetterCase := by
  intro fe name text
  rw [parse, splitAll_map_toLower rfl, parseLines_map_toLower, parse]


/-- Settles O57: trimming keeps the first token whole, and what it leaves after it still begins with the space. -/
theorem unknownMnemonicFails : Obligations.UnknownMnemonicFails := by
  intro fe c token rest hc hword hv
  have hblank : ∀ x ∈ c :: token, isBlank x = false := fun x hx => (hword x hx).1
  constructor
  · refine parseLine_unknown hc hword hv (trim_word_append (by simp) hblank _) ?_
    rcases List.prefix_cons_iff.mp (List.rdropWhile_prefix isBlank (' ' :: rest)) with h | ⟨r', h, -⟩
    · exact .inl h
    · exact .inr ⟨r', h⟩
  · exact parseLine_unknown (r := []) hc hword hv (by rw [trim_word hblank, List.append_nil]) (.inl rfl)

end Sys2Proof.Machine
end

section
/-! PROOFS. The statements about operands and the canonical spelling (30_encoding.md section 7): which operands fail,
which numbers are accepted, and that the canonical spelling of a program parses back to it. The decimal spelling is
the library's `Nat.toDigits`. -/

namespace Sys2Proof.Machine

variable {fe : FrontEnd} {c x : Char} {l : List Char} {n : Nat}

/-! ## Tokens that are no integer (R74, R75) -/

theorem isDigit_of_not_isAlphanum (hx : x.isAlphanum = false) : x.isDigit = false :=
  (Bool.or_eq_false_iff.mp hx).2

theorem ne_of_not_isAlphanum (hx : x.isAlphanum = false) (hc : c.isAlphanum = true) : x ≠ c := by
  rintro rfl
  simp [hx] at hc

/-- The digits of every base are ASCII letters and digits. -/
theorem isDigitOf_of_not_isAlphanum (hx : x.isAlphanum = false) (mark : Char) : isDigitOf mark x = false := by
  have hletter : 97 ≤ x.toNat → 102 < x.toNat := by
    simp [Char.isAlphanum, Char.isAlpha, Char.isLower, UInt32.le_iff_toNat_le] at hx ⊢
    omega
  simpa [isDigitOf, isDigit_of_not_isAlphanum hx, ne_of_not_isAlphanum hx] using fun _ => hletter

/-- The marks of the three bases are letters. -/
theorem isDigitOf_mark (hx : x.isAlphanum = false) : isDigitOf x = fun _ => false := by
  funext c
  simp [isDigitOf, ne_of_not_isAlphanum hx]

theorem separatedDigits_of_mem {isDig : Char → Bool} (h : x ∈ l) (hx : isDig x = false) (hsep : x ≠ '_') :
    separatedDigits isDig l = false := by
  rw [separatedDigits, Bool.and_eq_false_iff]
  exact .inr (List.all_eq_false.mpr ⟨x, h, by simp [hx, hsep]⟩)

theorem hasBaseMark_of_mem (h : x ∈ l) (hx : x.isAlphanum = false) (hsep : x ≠ '_') : hasBaseMark l = false := by
  match l with
  | [] | [_] => rfl
  | zero :: mark :: ds =>
    rw [hasBaseMark, Bool.and_eq_false_iff]
    simp only [List.mem_cons] at h
    rcases h with rfl | rfl | h
    · exact .inl (beq_false_of_ne (ne_of_not_isAlphanum hx rfl))
    · exact .inr (by simp [separatedDigits, isDigitOf_mark hx])
    · exact .inr (separatedDigits_of_mem h (isDigitOf_of_not_isAlphanum hx mark) hsep)

/-- A token with a character that stands in no spelling of an integer is not numeric. -/
theorem readUnsigned_of_mem (h : x ∈ l) (hx : x.isAlphanum = false) (hsep : x ≠ '_') :
    readUnsigned fe l = .notNumber := by
  have hdigit := isDigit_of_not_isAlphanum hx
  have hall : l.all Char.isDigit = false := List.all_eq_false.mpr ⟨x, h, by simp [hdigit]⟩
  simp [readUnsigned, hall, separatedDigits_of_mem h hdigit hsep, hasBaseMark_of_mem h hx hsep]

theorem readInteger_of_mem (h : x ∈ l) (hx : x.isAlphanum = false) (hsep : x ≠ '_') (hplus : x ≠ '+')
    (hminus : x ≠ '-') : readInteger fe l = .notNumber := by
  cases l with
  | nil => rfl
  | cons c cs =>
    have htail (hc : x ≠ c) : readUnsigned fe cs = .notNumber :=
      readUnsigned_of_mem ((List.mem_cons.mp h).resolve_left hc) hx hsep
    rw [readInteger]
    split
    next hc => rw [if_pos (htail (hc ▸ hplus))]
    split
    next hc => rw [if_pos (htail (hc ▸ hminus))]
    next => exact readUnsigned_of_mem h hx hsep

/-- After a minus sign nothing is an integer that is allowed (N7, 7). -/
theorem readInteger_minus (l : List Char) :
    readInteger fe ('-' :: l) = .notNumber ∨ readInteger fe ('-' :: l) = .negative := by
  by_cases h : readUnsigned fe l = .notNumber <;> simp [readInteger, h]

/-! ## Decimal numbers (R81) -/

theorem digitChar_eq : ∀ {n : Nat}, n < 10 → digitChar n = Nat.digitChar n := by decide

theorem decimalFrom_eq (fuel n : Nat) (acc : List Char) : decimalFrom fuel n acc = Nat.toDigitsCore 10 fuel n acc := by
  induction fuel generalizing n acc with
  | zero => rfl
  | succ fuel ih =>
    rw [decimalFrom, Nat.toDigitsCore, ih, digitChar_eq (Nat.mod_lt n (by decide))]
    by_cases hn : n < 10
    · simp [hn, digitChar_eq hn, Nat.mod_eq_of_lt hn]
    · simp [hn]

theorem decimal_eq (n : Nat) : decimal n = Nat.toDigits 10 n :=
  decimalFrom_eq (n + 1) n []

theorem decimal_ne_nil (n : Nat) : decimal n ≠ [] := by
  rw [decimal_eq]
  exact Nat.toDigits_ne_nil

theorem isDigit_of_mem_decimal (h : x ∈ decimal n) : x.isDigit = true :=
  Nat.isDigit_of_mem_toDigits (by decide) (by decide) (decimal_eq n ▸ h)

theorem digitsValue_decimal (n : Nat) : digitsValue (decimal n) = n := by
  rw [decimal_eq]
  exact Nat.ofDigitChars_ten_toDigits

theorem decimal_of_lt (h : n < 10) : decimal n = [digitChar n] := by
  rw [decimal_eq, Nat.toDigits_of_lt_base h, digitChar_eq h]

theorem decimal_of_le (h : 10 ≤ n) : decimal n = decimal (n / 10) ++ [Nat.digitChar (n % 10)] := by
  rw [decimal_eq, decimal_eq, Nat.toDigits_of_base_le (by decide) h]

theorem decimal_head (h : 0 < n) : (decimal n).head? ≠ some '0' := by
  induction n using Nat.strongRecOn with
  | ind n ih =>
    by_cases hn : n < 10
    · rw [decimal_of_lt hn]
      have hdigits : ∀ k < 10, 0 < k → [digitChar k].head? ≠ some '0' := by decide
      exact hdigits n hn h
    · rw [decimal_of_le (by omega), List.head?_append_of_ne_nil _ (decimal_ne_nil _)]
      exact ih (n / 10) (by omega) (by omega)

/-- A decimal number of more than one digit has no leading zero. -/
theorem decimal_length_of_head (h : (decimal n).head? = some '0') : (decimal n).length = 1 := by
  obtain rfl : n = 0 := by
    by_contra hn
    exact decimal_head (by omega) h
  rfl

/-- A decimal number is read as itself as far as the parser's integer type goes. -/
theorem readUnsigned_decimal (n : Nat) : readUnsigned fe (decimal n) =
    if n ≤ fe.intMax then .number n else .notSettled .integerOverflow := by
  have hall : (decimal n).all Char.isDigit = true := List.all_eq_true.mpr fun x hx => isDigit_of_mem_decimal hx
  simpa [readUnsigned, hall, digitsValue_decimal, decimal_ne_nil] using
    fun hzero hlen => absurd (decimal_length_of_head hzero) hlen

theorem readInteger_decimal (n : Nat) : readInteger fe (decimal n) =
    if n ≤ fe.intMax then .number n else .notSettled .integerOverflow := by
  rw [← readUnsigned_decimal]
  have hdigit (x : Char) (hx : x ∈ decimal n) := isDigit_of_mem_decimal hx
  cases hd : decimal n with
  | nil => exact absurd hd (decimal_ne_nil n)
  | cons c cs =>
    have hc : c.isDigit = true := hdigit c (hd ▸ List.mem_cons_self)
    have hplus : c ≠ '+' := by rintro rfl; cases hc
    have hminus : c ≠ '-' := by rintro rfl; cases hc
    simp [readInteger, hplus, hminus]

/-! ## Characters of a spelling -/

/-- The characters of mnemonics, register names and numbers in the canonical spelling. -/
def isWordChar (c : Char) : Bool := c.isLower || c.isDigit

/-- The characters of a spelled line. -/
def isSpelled (c : Char) : Bool := isWordChar c || c == ' ' || c == ','

/-- What holds of the spelled characters among the 128 of ASCII holds of all of them. -/
theorem isSpelled_cases {P : Char → Prop} (hP : ∀ k < 128, isSpelled (Char.ofNat k) = true → P (Char.ofNat k))
    (h : isSpelled c = true) : P c := by
  have hlt : c.toNat < 128 := by
    simp only [isSpelled, Bool.or_eq_true, beq_iff_eq] at h
    rcases h with (h | rfl) | rfl
    · simp [isWordChar, Char.isLower, Char.isDigit, UInt32.le_iff_toNat_le] at h
      omega
    · decide
    · decide
  simpa using hP c.toNat hlt (by simpa using h)

theorem toLower_of_isSpelled (h : isSpelled c = true) : c.toLower = c :=
  isSpelled_cases (P := fun c => c.toLower = c) (by decide) h

theorem isLineEnd_of_isSpelled (h : isSpelled c = true) : isLineEnd c = false :=
  isSpelled_cases (P := fun c => isLineEnd c = false) (by decide) h

theorem isSpelled_of_wordChar (h : isWordChar c = true) : isSpelled c = true := by
  simp [isSpelled, h]

theorem isBlank_of_wordChar (h : isWordChar c = true) : isBlank c = false :=
  isSpelled_cases (P := fun c => isWordChar c = true → isBlank c = false) (by decide) (isSpelled_of_wordChar h) h

/-- A token of the canonical spelling. -/
def IsWord (l : List Char) : Prop := l ≠ [] ∧ ∀ x ∈ l, isWordChar x = true

theorem IsWord.not_mem (h : IsWord l) (hx : isWordChar x = false) : x ∉ l := fun hm => by
  simp [h.2 x hm] at hx

theorem IsWord.blank (h : IsWord l) : ∀ x ∈ l, isBlank x = false := fun x hx => isBlank_of_wordChar (h.2 x hx)

theorem IsWord.spelled (h : IsWord l) : ∀ x ∈ l, isSpelled x = true := fun x hx => isSpelled_of_wordChar (h.2 x hx)

theorem isWord_mnemonicOf (v : Variant) : IsWord (mnemonicOf v) := by
  cases v <;> exact ⟨by decide, List.all_eq_true.mp rfl⟩

theorem isWord_decimal (n : Nat) : IsWord (decimal n) :=
  ⟨decimal_ne_nil n, fun x hx => by simp [isWordChar, isDigit_of_mem_decimal hx]⟩

theorem isWord_registerName (n : Nat) : IsWord (registerName n) :=
  ⟨by simp [registerName], List.forall_mem_cons.mpr ⟨by decide, (isWord_decimal n).2⟩⟩

/-! ## Operands in canonical spelling -/

theorem registerOperand_registerName (n : Nat) : registerOperand fe (some (registerName n)) =
    if n ≤ fe.intMax then .value n else .notSettled .integerOverflow := by
  have hne : (decimal n).isEmpty = false := by simp [decimal_ne_nil]
  simp only [registerName, registerOperand, hne, trim_word (isWord_decimal n).blank, readInteger_decimal]
  by_cases hn : n ≤ fe.intMax <;> simp [hn]

theorem valueOperand_decimal (n : Nat) : valueOperand fe (some (decimal n)) =
    if n ≤ fe.intMax then .value n else .notSettled .integerOverflow := by
  have hread := readInteger_decimal (fe := fe) n
  cases hd : decimal n with
  | nil => exact absurd hd (decimal_ne_nil n)
  | cons c cs =>
    rw [hd] at hread
    have hr : c ≠ 'r' := by
      rintro rfl
      exact absurd (isDigit_of_mem_decimal (hd ▸ List.mem_cons_self : 'r' ∈ decimal n)) (by decide)
    simp only [valueOperand, if_neg hr, hread]
    by_cases hn : n ≤ fe.intMax <;> simp [hn]

/-! ## Lines in canonical spelling -/

theorem variantOfMnemonic_mnemonicOf (v : Variant) : variantOfMnemonic (mnemonicOf v) = some v := by
  cases v <;> decide

theorem dispatchTokens_mnemonicOf (v : Variant) (h : l.any isLineEnd = false) :
    dispatchTokens fe (mnemonicOf v) (some l) = parseOperands fe v ((splitAll ',' l).map trim) := by
  have hend : (mnemonicOf v).any isLineEnd = false :=
    List.any_eq_false.mpr fun x hx => by simp [isLineEnd_of_isSpelled ((isWord_mnemonicOf v).spelled x hx)]
  have hblank : (mnemonicOf v).any isBlank = false :=
    List.any_eq_false.mpr fun x hx => by simp [(isWord_mnemonicOf v).blank x hx]
  simp [dispatchTokens, hend, hblank, variantOfMnemonic_mnemonicOf, h]

/-- A mnemonic, a space, and an operand list that ends with a word. -/
theorem parseLine_mnemonicOf (v : Variant) {front word : List Char} (hfront : ∀ x ∈ front, isSpelled x = true)
    (hword : IsWord word) : parseLine fe (mnemonicOf v ++ ' ' :: (front ++ word)) =
      parseOperands fe v ((splitAll ',' (front ++ word)).map trim) := by
  have hv := isWord_mnemonicOf v
  have htrim : trim (mnemonicOf v ++ ' ' :: (front ++ word)) = mnemonicOf v ++ ' ' :: (front ++ word) :=
    trim_word_append_word (mid := ' ' :: front) hv.1 hword.1 hv.blank hword.blank
  have hchars : ∀ x ∈ front ++ word, isSpelled x = true :=
    List.forall_mem_append.mpr ⟨hfront, hword.spelled⟩
  have hlower : (mnemonicOf v ++ ' ' :: (front ++ word)).map Char.toLower = mnemonicOf v ++ ' ' :: (front ++ word) := by
    refine (List.map_congr_left fun x hx => toLower_of_isSpelled ?_).trans (List.map_id _)
    rcases List.mem_append.mp hx with hx | hx
    · exact hv.spelled x hx
    · rcases List.mem_cons.mp hx with rfl | hx
      · rfl
      · exact hchars x hx
  have hcomment : (mnemonicOf v ++ ' ' :: (front ++ word)).head? ≠ some '#' := by
    cases v <;> simp [mnemonicOf]
  rw [parseLine_eq_dispatchLine (by simp [htrim]) (by rwa [htrim]), htrim, hlower,
    dispatchLine_of_space (hv.not_mem (by decide)), dispatchTokens_mnemonicOf]
  exact List.any_eq_false.mpr fun x hx => by simp [isLineEnd_of_isSpelled (hchars x hx)]

/-- An operand list of one word. -/
theorem parseLine_one_word (v : Variant) (h : IsWord l) :
    parseLine fe (mnemonicOf v ++ ' ' :: l) = parseOperands fe v [l] := by
  have hline := parseLine_mnemonicOf (fe := fe) v (front := []) (by simp) h
  rw [List.nil_append, splitAll_of_not_mem (h.not_mem (by decide)), List.map_singleton, trim_word h.blank] at hline
  exact hline

/-- An operand list of two words, separated by a comma and a space. -/
theorem parseLine_two_words (v : Variant) {l' : List Char} (h : IsWord l) (h' : IsWord l') :
    parseLine fe (mnemonicOf v ++ ' ' :: l ++ ',' :: ' ' :: l') = parseOperands fe v [l, l'] := by
  have hfront : ∀ x ∈ l ++ [',', ' '], isSpelled x = true :=
    List.forall_mem_append.mpr ⟨h.spelled, by simp [isSpelled]⟩
  have hline := parseLine_mnemonicOf (fe := fe) v hfront h'
  have hcomma : ',' ∉ ' ' :: l' := by simpa using h'.not_mem (x := ',') (by decide)
  have hspace : trim (' ' :: l') = l' := (trim_blank_cons rfl l').trans (trim_word h'.blank)
  simp only [List.append_assoc, List.cons_append, List.nil_append, splitAll_append,
    splitAll_of_not_mem (h.not_mem (x := ',') (by decide)), splitAll_of_not_mem hcomma, List.map_cons, List.map_nil,
    trim_word h.blank, hspace] at hline ⊢
  exact hline

/-- A spelled instruction is read as itself as far as the parser's integer type goes. -/
theorem parseLine_spell (i : Instr) : parseLine fe (spell i) =
    if i.operandsUpTo fe.intMax then .instr i else .notSettled .integerOverflow := by
  cases i with
  | hlt => rfl
  | out n | inp n =>
    rw [spell, parseLine_one_word _ (isWord_registerName n)]
    by_cases hn : n ≤ fe.intMax <;>
      simp [parseOperands, registerOperand_registerName, Instr.operandsUpTo, hn, oneOperand, Instr.ofVariant]
  | mov d s =>
    rw [spell, parseLine_two_words _ (isWord_registerName d) (isWord_decimal s)]
    by_cases hd : d ≤ fe.intMax <;> by_cases hs : s ≤ fe.intMax <;>
      simp [parseOperands, registerOperand_registerName, valueOperand_decimal, Instr.operandsUpTo, hd, hs, twoOperands,
        Instr.ofVariant]
  | _ d s =>
    rw [spell, parseLine_two_words _ (isWord_registerName d) (isWord_registerName s)]
    by_cases hd : d ≤ fe.intMax <;> by_cases hs : s ≤ fe.intMax <;>
      simp [parseOperands, registerOperand_registerName, Instr.operandsUpTo, hd, hs, twoOperands, Instr.ofVariant]

theorem newline_not_mem_spell (i : Instr) : '\n' ∉ spell i := by
  have hword {l : List Char} (h : IsWord l) : '\n' ∉ l := h.not_mem (by decide)
  cases i <;>
    simp [spell, hword (isWord_mnemonicOf _), hword (isWord_registerName _), hword (isWord_decimal _)]

/-- The lines of a spelled program: one for each instruction, and the empty text after the last newline. -/
theorem splitAll_spellProgram (is : List Instr) : splitAll '\n' (spellProgram is) = is.map spell ++ [[]] := by
  induction is with
  | nil => rfl
  | cons i is ih =>
    have hline : spellProgram (i :: is) = spell i ++ '\n' :: spellProgram is := by simp [spellProgram]
    rw [hline, splitAll_append, splitAll_of_not_mem (newline_not_mem_spell i), ih]
    rfl

theorem parseLines_spell {name : List Char} {done : Nat} (is : List Instr) :
    parseLines fe name done (is.map spell ++ [[]]) =
      if is.all (Instr.operandsUpTo fe.intMax) then .instrs is else .notSettled .integerOverflow := by
  induction is generalizing done with
  | nil => rfl
  | cons i is ih =>
    have hi := parseLine_spell (fe := fe) i
    rw [List.map_cons, List.cons_append, List.all_cons]
    by_cases hfit : i.operandsUpTo fe.intMax = true
    · rw [if_pos hfit] at hi
      rw [parseLines_of_instr hi, ih, hfit, Bool.true_and]
      split <;> rfl
    · rw [if_neg hfit] at hi
      rw [parseLines_of_notSettled hi]
      simp [hfit]

/-- Settles O49, by induction on the lines of the spelled program. -/
theorem canonicalSpellingParsesBack : Obligations.CanonicalSpellingParsesBack := by
  intro fe name is
  rw [parse, splitAll_spellProgram, parseLines_spell]

/-- Settles O56, clause by clause, from what the integer reader answers on each kind of token. -/
theorem operandValidation : Obligations.OperandValidation := by
  intro fe
  refine ⟨rfl, rfl, fun c cs hc => if_neg hc, fun cs => rfl,
    fun x cs hx halnum hblank hsep hplus hminus => ⟨?_, fun hr => ?_⟩, fun cs => ⟨?_, ?_⟩, fun n hn => ?_⟩
  · have hread : readInteger fe (trim cs) = .notNumber :=
      readInteger_of_mem (mem_trim hx hblank) halnum hsep hplus hminus
    simp [registerOperand, List.ne_nil_of_mem hx, hread]
  · have hread : readInteger fe cs = .notNumber := readInteger_of_mem hx halnum hsep hplus hminus
    obtain _ | ⟨c, cs⟩ := cs
    · cases hx
    · have hc : c ≠ 'r' := by simpa using hr
      simp [valueOperand, hc, hread]
  · have htrim : trim ('-' :: cs) = '-' :: cs.rdropWhile isBlank :=
      trim_word_append (l := ['-']) (by simp) (by simp [isBlank]) cs
    rcases readInteger_minus (fe := fe) (cs.rdropWhile isBlank) with h | h <;> simp [registerOperand, htrim, h]
  · rcases readInteger_minus (fe := fe) cs with h | h <;> simp [valueOperand, h]
  · have hle : n ≤ fe.intMax := by
      rcases hn with hn | ⟨hwf, hn⟩
      · exact hn
      · exact hn.trans (by simpa [FrontEnd.wf] using hwf)
    rw [registerOperand_registerName, valueOperand_decimal, if_pos hle]
    exact ⟨rfl, rfl⟩

end Sys2Proof.Machine
end

section
/-! PROOFS. The statement about Mov (40_mov.md): its word in the spec's formula, the state its ACCEPT leaves, and the
DRAIN that follows it. -/

namespace Sys2Proof.Machine

variable {s : State} {i : Instr}

/-- The formula of the instruction rules is the block's packing, in each mode, for an opcode of four bits. -/
theorem wordOf_eq_pack {op : Nat} (hop : op < 16) (m : NarrowMode) (a b : Nat) : wordOf m op a b = pack m op a b := by
  cases m with
  | field =>
    refine BitVec.eq_of_toNat_eq ?_
    simp only [wordOf, pack, packField_toNat, BitVec.toNat_ofNat, Nat.mod_eq_of_lt hop]
    omega
  | byte => rw [wordOf, pack, packByte_eq_or, BitVec.ofNat_or, BitVec.ofNat_or]

/-- With `ph` = 0 the offered instruction is accepted (R142). -/
theorem exec_idle (hp : s.ph = .idle) : exec i s = .next (s.accept i.variant (portsOf i).1 (portsOf i).2) := by
  rw [exec_eq_offer, State.offer_idle hp]

/-- With `ph` = 1 the step is the DRAIN, whichever instruction is offered (R143). -/
theorem exec_pending (hp : s.ph = .pending) : exec i s = .next s.drain := by
  rw [exec_eq_offer, State.offer_pending hp]

/-- The state between the two bytes of a Mov (R91). -/
theorem State.accept_mov (s : State) (d v : Nat) : s.accept .mov d v =
    { s with
      out := s.out.write s.opos (wordOf s.cfg.narrowMode 1 d 0)
      opos := s.opos + 1, ipos := s.ipos + 1, immHold := BitVec.ofNat 8 (v % 256), ph := .pending } := by
  rw [wordOf_eq_pack (by decide)]
  rfl

/-- Settles O17: the ACCEPT leaves the immediate pending, so the next step is the DRAIN. -/
theorem movEmitsWordThenImmediate : Obligations.MovEmitsWordThenImmediate := by
  intro s d v hp
  refine ⟨s.accept .mov d v, exec_idle hp, s.accept_mov d v, fun i => ?_⟩
  have hpending : (s.accept .mov d v).ph = .pending := State.accept_ph ..
  rw [exec_pending hpending, State.accept_mov, State.drain, State.emit, ← hp]

end Sys2Proof.Machine
end

section
/-! PROOFS. The statements about the two-register instructions (41_alu_two_register.md): each is one word in the spec's
formula, and one step emits it. The rule for a step that appends a one-byte encoding serves every variant but Mov. -/

namespace Sys2Proof.Machine

variable {s : State} {i : Instr} {w : Word}

/-- ACCEPT on a ROM row without a trailing byte leaves `ph` and the hold register alone (R142). -/
theorem State.accept_eq_appended {v : Variant} (htb : (rom v).tb = false) (s : State) (d r : Nat) :
    s.accept v d r = s.appended ((rom v).firstByte s.cfg.narrowMode d r) := by
  rw [State.accept, if_neg (by simp [htb])]
  rfl

/-- With `ph` = 0 an instruction whose encoding is one byte appends that byte (R33, R142). -/
theorem exec_of_encode_singleton (hp : s.ph = .idle) (h : encode s.cfg.narrowMode i = [w]) :
    exec i s = .next (s.appended w) := by
  rw [encode_eq_firstByte, List.cons.injEq] at h
  obtain ⟨hfirst, htail⟩ := h
  have htb : (rom i.variant).tb = false := by simpa using htail
  rw [exec_idle hp, State.accept_eq_appended htb, hfirst]

/-- With `ph` = 0 an instruction encoded as one packed word appends the word of the instruction rules' formula. -/
theorem exec_of_encode_pack {op a b : Nat} (hp : s.ph = .idle) (hop : op < 16)
    (h : encode s.cfg.narrowMode i = [pack s.cfg.narrowMode op a b]) :
    exec i s = .next (s.appended (wordOf s.cfg.narrowMode op a b)) := by
  rw [wordOf_eq_pack hop]
  exact exec_of_encode_singleton hp h

/-- Settles O18: `Enc` packs each of the six with its own opcode. -/
theorem twoRegisterInstructionsAppendOneWord : Obligations.TwoRegisterInstructionsAppendOneWord :=
  fun _ _ _ hp =>
    ⟨exec_of_encode_pack hp (by decide) rfl, exec_of_encode_pack hp (by decide) rfl,
      exec_of_encode_pack hp (by decide) rfl, exec_of_encode_pack hp (by decide) rfl,
      exec_of_encode_pack hp (by decide) rfl, exec_of_encode_pack hp (by decide) rfl⟩

/-- Settles O21, by evaluating `Enc` in both modes on each of the nine instructions. -/
theorem outOfRangeWorkedExamples : Obligations.OutOfRangeWorkedExamples := by
  unfold Obligations.OutOfRangeWorkedExamples
  decide

end Sys2Proof.Machine
end

section
/-! PROOFS. The statement about the one-register instructions (42_io_one_register.md): the rule for one-byte encodings
gives the step; what is particular to Out and In is the constant zero in field r1. -/

namespace Sys2Proof.Machine

/-- A zero second operand leaves field r1 of the word zero in both modes: nothing spills to the right (R52, R53). -/
theorem split_wordOf_zero_right {op : Nat} (hop : op < 16) (m : NarrowMode) (a : Nat) :
    (split (wordOf m op a 0)).2.2 = 0 := by
  rw [wordOf_eq_pack hop]
  cases m with
  | field => simp [pack]
  | byte => simp [pack, slice]

/-- Settles O19: `Enc` packs the register first and zero second; the ROM rows select no unused port. -/
theorem oneRegisterInstructionsAppendOneWord : Obligations.OneRegisterInstructionsAppendOneWord := by
  intro s n hp
  have hout : 13 < 16 := by decide
  have hinp : 14 < 16 := by decide
  exact ⟨exec_of_encode_pack hp hout rfl, exec_of_encode_pack hp hinp rfl,
    split_wordOf_zero_right hout _ n, split_wordOf_zero_right hinp _ n,
    fun _ => ⟨(wordOf_eq_pack hout ..).symm, (wordOf_eq_pack hinp ..).symm⟩⟩

end Sys2Proof.Machine
end

section
/-! PROOFS. The statement about Hlt (43_hlt.md): the rule for one-byte encodings gives the step; what is particular to
Hlt is its literal byte, whose bits 7:4 are no other variant's opcode. -/

namespace Sys2Proof.Machine

/-- No variant of the opcode table has the 15 that stands for Hlt (R57, R62). -/
theorem opc_eq_fifteen_iff (i : Instr) : i.opc = 15 ↔ i = .hlt := by
  cases i <;> simp [Instr.opc]

/-- Under `FIELD` a first byte `0xFF` tells Hlt, since bits 7:4 of a first byte are the opcode. -/
theorem encode_head_hltByte_iff (i : Instr) : (encode .field i).head? = some 0xFF ↔ i = .hlt := by
  constructor
  · intro h
    obtain ⟨w, tail, hw, hop⟩ := encode_first_opcode i
    rw [hw, List.head?_cons, Option.some.injEq] at h
    rw [← opc_eq_fifteen_iff, ← hop, h]
    exact congrArg Prod.fst split_hltByte
  · rintro rfl
    rfl

/-- Settles O20: the appended byte leaves `ph` = 0, so whichever instruction comes next is accepted (R131). -/
theorem hltAppendsLiteralAndGoesOn : Obligations.HltAppendsLiteralAndGoesOn := by
  intro s hp
  have hidle : (s.appended 0xFF).ph = .idle := hp
  exact ⟨exec_of_encode_singleton hp rfl, fun i => ⟨_, exec_idle hidle, State.accept_ipos ..⟩,
    fun _ _ _ => ⟨rfl, rfl⟩, encode_head_hltByte_iff, by decide, split_hltByte⟩

end Sys2Proof.Machine
end

section
/-! PROOFS. The statements about the sequence and the steps (44_sequence_and_steps.md): what an instruction and a cycle
do and leave alone, the agreement with `EncSeq`, and how long a run takes. A run is measured by the bytes it still owes:
an output transfer pays one, and a cycle in which the environment moves transfers while a byte is owed. -/

namespace Sys2Proof.Machine

variable {s t : State} {r : PortRecord} {i : Instr} {m : NarrowMode} {opw k : Nat}

/-! ## The encoding of a sequence -/

/-- The number of bytes of `EncSeq` (R146). -/
theorem encodeSeq_length (m : NarrowMode) (is : List Instr) : (encodeSeq m is).length = is.length + movCount is := by
  induction is with
  | nil => rfl
  | cons i is ih =>
    have hi : i.size + movCount is = 1 + movCount (i :: is) := by
      cases i with
      | mov d v => simp only [Instr.size, movCount]; omega
      | _ => rfl
    rw [encodeSeq_cons, List.length_append, encode_length, ih, List.length_cons]
    omega

/-- A port of 8 or more bits is not observable in the encoding of a sequence (R55). -/
theorem encodeSeq_map_onPorts (hw : 8 ≤ opw) (is : List Instr) :
    encodeSeq m (is.map (Instr.onPorts opw)) = encodeSeq m is := by
  induction is with
  | nil => rfl
  | cons i is ih => rw [List.map_cons, encodeSeq_cons, encodeSeq_cons, encode_onPorts hw, ih]

/-- What the records of a sequence present: its instructions, narrowed to the ports (R11). -/
theorem filterMap_instr_records (opw : Nat) (is : List Instr) :
    (is.map Instr.record).filterMap (PortRecord.instr opw) = is.map (Instr.onPorts opw) := by
  simp [List.filterMap_map, record_instr]

/-! ## What an instruction does -/

/-- The tags 0 to 9 name variants (R12). -/
theorem ofTag_isSome : ∀ {tag : BitVec 4}, tag.toNat ≤ 9 → (Variant.ofTag tag).isSome := by decide

/-- ACCEPT in full: the byte of the ROM row goes out, and a row with a trailing byte leaves the immediate pending
(R142). -/
theorem State.accept_eq (s : State) (v : Variant) (d n : Nat) : s.accept v d n =
    { s with
      out := s.out.write s.opos ((rom v).firstByte s.cfg.narrowMode d n)
      opos := s.opos + 1
      ipos := s.ipos + 1
      immHold := if (rom v).tb then imm8 n else s.immHold
      ph := if (rom v).tb then .pending else s.ph } := by
  cases v <;> rfl

/-- The meaning of the instruction a record presents is the offer of the values on its ports: the port a variant does
not use is not selected (R13). -/
theorem exec_ofVariant (v : Variant) (d n : Nat) : exec (Instr.ofVariant v d n) s = s.offer v d n := by
  cases v <;> rfl

/-! ## The kind of a cycle -/

/-- What an ACCEPT cycle requires (R142). -/
theorem State.offered_of_accept (h : s.action = .accept i) :
    s.ph = .idle ∧ ∃ r, s.offered = some r ∧ r.instr s.cfg.opw = some i := by
  rcases s.action_cases with ⟨ha, -⟩ | ⟨ha, -⟩ | ⟨ha, -⟩ | ⟨-, -, -, ⟨ha, -⟩ | ⟨hp, -, r, ho, ⟨ha, -⟩ | ⟨j, ha, hj⟩⟩⟩
  case inr.inr.inr.inr.inr =>
    cases h.symm.trans ha
    exact ⟨hp, r, ho, hj⟩
  all_goals cases h.symm.trans ha

/-- The kind of a cycle in which the block takes what the host offers (R142, R166). -/
theorem State.action_of_offered (hd : s.resetDone = true) (hr : s.pin.rst = false) (hrdy : s.pin.outReady = true)
    (hoff : s.pin.offer = true) (hp : s.ph = .idle) (ho : s.offered = some r) :
    s.action = (r.instr s.cfg.opw).elim (.refuse (.reservedTag r.tag)) .accept := by
  simp only [State.action, hd, hr, hrdy, hoff, hp, ho]
  cases r.instr s.cfg.opw <;> rfl

/-- With `ph` = 1 a cycle with a ready sink is the DRAIN (R143). -/
theorem State.action_of_pending (hd : s.resetDone = true) (hr : s.pin.rst = false) (hrdy : s.pin.outReady = true)
    (hp : s.ph = .pending) : s.action = .drain := by
  simp [State.action, hd, hr, hrdy, hp]

theorem State.complete_iff : s.complete = true ↔ s.ph = .idle ∧ s.ipos = s.input.length := by
  simp [State.complete]

/-- In a complete state nothing is left to offer, so every cycle without reset stalls (R145). -/
theorem State.action_of_complete (hd : s.resetDone = true) (hr : s.pin.rst = false) (hc : s.complete = true) :
    s.action = .stall := by
  obtain ⟨hp, hipos⟩ := State.complete_iff.mp hc
  have ho : s.offered = none := List.getElem?_eq_none hipos.ge
  simp [State.action, hd, hr, hp, ho]

/-! ## The bytes still owed -/

/-- The instructions still to be accepted, `IN[ipos ..]` as the ports present them. -/
def State.remainingInstrs (s : State) : List Instr := (s.input.drop s.ipos).filterMap (PortRecord.instr s.cfg.opw)

/-- The bytes still to be put out: those of the instructions left, and a pending immediate. -/
def State.owed (s : State) : Nat := (encodeSeq s.cfg.narrowMode s.remainingInstrs).length + s.ph.bit.toNat

theorem State.owed_of_idle (hp : s.ph = .idle) : s.owed = (encodeSeq s.cfg.narrowMode s.remainingInstrs).length := by
  rw [State.owed, hp]; rfl

theorem State.owed_of_pending (hp : s.ph = .pending) :
    s.owed = (encodeSeq s.cfg.narrowMode s.remainingInstrs).length + 1 := by
  rw [State.owed, hp]; rfl

/-- The instruction the offered record presents is the first one left, and ACCEPT takes it. -/
theorem State.remainingInstrs_accept (ho : s.offered = some r) (hi : r.instr s.cfg.opw = some i) (v : Variant)
    (d n : Nat) : s.remainingInstrs = i :: (s.accept v d n).remainingInstrs := by
  obtain ⟨hlt, hget⟩ := List.getElem?_eq_some_iff.mp ho
  simp [State.remainingInstrs, List.drop_eq_getElem_cons hlt, hget, hi]

/-- DRAIN pays the pending immediate. -/
theorem State.owed_drain (hp : s.ph = .pending) : s.drain.owed + 1 = s.owed := by
  rw [State.owed_of_idle (State.drain_ph s), State.owed_of_pending hp]
  rfl

/-- ACCEPT pays the first byte of the instruction's encoding; the second one of a Mov stays owed. -/
theorem State.owed_accept (hp : s.ph = .idle) (ho : s.offered = some r) (hi : r.instr s.cfg.opw = some i) :
    (s.accept i.variant (portsOf i).1 (portsOf i).2).owed + 1 = s.owed := by
  rw [State.owed_of_idle hp, State.remainingInstrs_accept ho hi i.variant (portsOf i).1 (portsOf i).2, encodeSeq_cons,
    encode_eq_firstByte, List.length_append, State.owed, State.accept_cfg, State.accept_ph, hp]
  cases (rom i.variant).tb <;> simp [Phase.bit] <;> omega

/-- Outside reset a cycle pays a byte exactly when an output transfer completes. -/
theorem owed_step (hr : s.pin.rst = false) (h : step s = .next t) : t.owed + s.outTransfer.toNat = s.owed := by
  rcases step_next_cases h with ⟨hr', -⟩ | ⟨-, ha, rfl⟩ | ⟨-, hp, ha, rfl⟩ | ⟨-, hp, r, i, ho, hi, ha, rfl⟩
  · simp [hr] at hr'
  · rw [State.outTransfer_of_stall ha]; rfl
  · rw [State.outTransfer_of_drain hp ha]
    exact State.owed_drain (s := s.tick) hp
  · rw [State.outTransfer_of_accept hp ha]
    exact State.owed_accept (s := s.tick) hp ho hi

/-- After a reset cycle the whole input is owed again, which is never less than was left of it. -/
theorem State.owed_le_applyReset (s : State) : s.owed ≤ s.applyReset.owed + 1 := by
  have hbit : s.ph.bit.toNat ≤ 1 := by cases s.ph <;> decide
  have hsplit : s.applyReset.remainingInstrs = s.acceptedInstrs ++ s.remainingInstrs := by
    simp [State.remainingInstrs, State.acceptedInstrs, ← List.filterMap_append]
  rw [State.owed_of_idle (State.applyReset_ph s), hsplit, encodeSeq_append, List.length_append, State.owed,
    State.applyReset_cfg]
  omega

/-- No cycle pays more than one byte. -/
theorem owed_le_step (h : step s = .next t) : s.owed ≤ t.owed + 1 := by
  cases hr : s.pin.rst with
  | true =>
    rw [step_of_rst hr] at h
    cases h
    exact State.owed_le_applyReset s.tick
  | false =>
    have hpay := owed_step hr h
    have hle := Bool.toNat_le s.outTransfer
    omega

/-- A complete state owes nothing. -/
theorem State.owed_of_complete (hc : s.complete = true) : s.owed = 0 := by
  obtain ⟨hp, hipos⟩ := State.complete_iff.mp hc
  simp [State.owed_of_idle hp, State.remainingInstrs, hipos]

/-! ## Runs -/

/-- A run of `k + 1` steps that answers a next state has taken a first step. -/
theorem exists_step_of_run_succ (h : Host.Core.run Sys2Proof.core (k + 1) s = .next t) :
    ∃ u, step s = .next u ∧ Host.Core.run Sys2Proof.core k u = .next t := by
  cases hst : step s with
  | next u => exact ⟨u, rfl, (run_succ hst).symm.trans h⟩
  | fault e => cases e
  | refused e =>
    simp only [Host.Core.run] at h
    rw [show Sys2Proof.core.step s = .refused e from hst] at h
    cases h

/-- A run of `k` steps pays at most `k` bytes. -/
theorem owed_le_run : ∀ (k : Nat) (s : State), Host.Core.run Sys2Proof.core k s = .next t → s.owed ≤ t.owed + k
  | 0, s, h => by cases h; exact le_rfl
  | k + 1, s, h => by
    obtain ⟨u, hstep, hrun⟩ := exists_step_of_run_succ h
    have hfirst := owed_le_step hstep
    have hrest := owed_le_run k u hrun
    omega

/-- What keeps a run going: the block has been reset, its stream has the shape of a run's, and every record of `IN`
names an Instruction, so that no cycle is refused (R166, R188). -/
structure State.Runnable (s : State) : Prop where
  resetDone : s.resetDone = true
  inv : s.Inv
  tags : ∀ r ∈ s.input, (Variant.ofTag r.tag).isSome

theorem State.runnable_of_launch (h : s.Launch) : s.Runnable := by
  have hinv := State.inv_of_launch h
  obtain ⟨hd, -, -, -, -, htags, -⟩ := h
  exact ⟨hd, hinv, htags⟩

/-- Where every tag names a variant, the offered record presents an instruction. -/
theorem State.Runnable.instr_of_offered (hs : s.Runnable) (ho : s.offered = some r) :
    ∃ i, r.instr s.cfg.opw = some i := by
  obtain ⟨v, hv⟩ := Option.isSome_iff_exists.mp (hs.tags r (List.mem_of_getElem? ho))
  exact ⟨_, by rw [PortRecord.instr, hv]; rfl⟩

/-- No cycle of such a block is refused. -/
theorem State.Runnable.step_next (hs : s.Runnable) : ∃ t, step s = .next t := by
  rcases s.action_cases with ⟨-, hr⟩ | ⟨ha, -⟩ | ⟨-, -, -, hd⟩ | ⟨-, -, -, ⟨ha, -⟩ | ⟨hp, -, r, ho, ⟨-, hi⟩ | ⟨i, ha, -⟩⟩⟩
  · exact ⟨_, step_of_rst hr⟩
  · exact ⟨_, step_of_stall ha⟩
  · simp [hs.resetDone] at hd
  · exact ⟨_, step_of_drain ha⟩
  · obtain ⟨i, hi'⟩ := hs.instr_of_offered ho
    simp [hi] at hi'
  · exact ⟨_, step_of_accept hp ha⟩

/-- Every step keeps a run going. -/
theorem State.Runnable.of_step (hs : s.Runnable) (h : step s = .next t) : t.Runnable := by
  refine ⟨?_, step_keeps_inv hs.inv h, (step_keeps_input_cfg h).1 ▸ hs.tags⟩
  have hd := hs.resetDone
  rcases step_next_cases h with ⟨-, rfl⟩ | ⟨-, -, rfl⟩ | ⟨-, -, -, rfl⟩ | ⟨-, -, r, i, -, -, -, rfl⟩
  · rfl
  · exact hd
  · exact hd
  · exact (State.accept_resetDone ..).trans hd

/-- Where no byte is owed the run is complete: an instruction left would owe one. -/
theorem State.Runnable.complete_of_owed (hs : s.Runnable) (h : s.owed = 0) : s.complete = true := by
  cases hp : s.ph with
  | pending => simp [State.owed_of_pending hp] at h
  | idle =>
    refine State.complete_iff.mpr ⟨hp, le_antisymm hs.inv.2 ?_⟩
    by_contra hlt
    have ho : s.offered = some s.input[s.ipos] := List.getElem?_eq_getElem (by omega)
    obtain ⟨i, hi⟩ := hs.instr_of_offered ho
    have hpay := State.owed_accept hp ho hi
    omega

theorem moves_iff {p : Pins} : p.moves = true ↔ p.offer = true ∧ p.outReady = true ∧ p.rst = false := by
  simp [Pins.moves, and_assoc]

/-- In a cycle in which the environment moves, a run that is not complete puts out a byte (R186). -/
theorem State.outTransfer_of_moves (hinv : s.Inv) (hm : s.pin.moves = true) (hc : s.complete ≠ true) :
    s.outTransfer = true := by
  obtain ⟨hoff, hrdy, hr⟩ := moves_iff.mp hm
  cases hp : s.ph with
  | pending => simp [State.outTransfer_of_pending hp, hr, hrdy]
  | idle =>
    have hlt : s.ipos < s.input.length := lt_of_le_of_ne hinv.2 fun h => hc (State.complete_iff.mpr ⟨hp, h⟩)
    have hv : s.inValid = true := by simp [State.inValid, State.offered, hoff, hlt]
    simp [State.outTransfer, State.outValid_of_idle hp, hv, hr, hrdy]

/-- One cycle without reset: the run goes on, and a byte owed is paid where the environment moves. -/
theorem State.Runnable.progress (hs : s.Runnable) (hr : s.pin.rst = false) :
    ∃ t, step s = .next t ∧ t.Runnable ∧ t.owed ≤ s.owed - s.pin.moves.toNat := by
  obtain ⟨t, h⟩ := hs.step_next
  have hpay := owed_step hr h
  refine ⟨t, h, hs.of_step h, ?_⟩
  by_cases hc : s.complete = true
  · have hnone := State.owed_of_complete hc
    omega
  cases hm : s.pin.moves with
  | true =>
    rw [State.outTransfer_of_moves hs.inv hm hc] at hpay
    exact Nat.le_sub_of_add_le hpay.le
  | false => exact (Nat.le_add_right ..).trans hpay.le

/-- A schedule without reset: as many bytes are paid as cycles move, until none is owed. -/
theorem State.Runnable.progress_schedule : ∀ (pins : List Pins) {s : State}, s.Runnable → s.pins = pins →
    (∀ p ∈ pins, p.rst = false) →
    ∃ t, Host.Core.run Sys2Proof.core pins.length s = .next t ∧ t.Runnable ∧ t.pins = [] ∧
      t.pinsAfter = s.pinsAfter ∧ t.owed ≤ s.owed - (pins.filter Pins.moves).length
  | [], s, hs, hpins, _ => ⟨s, rfl, hs, hpins, rfl, le_rfl⟩
  | p :: rest, s, hs, hpins, hr => by
    have hpin : s.pin = p := by rw [State.pin, hpins]; rfl
    obtain ⟨hrp, hrest⟩ := List.forall_mem_cons.mp hr
    obtain ⟨u, hstep, hu, hpay⟩ := hs.progress (by rw [hpin, hrp])
    obtain ⟨-, -, hupins, huafter⟩ := step_keeps_input_cfg hstep
    obtain ⟨t, hrun, ht, htpins, htafter, hpays⟩ := progress_schedule rest hu (by rw [hupins, hpins]; rfl) hrest
    refine ⟨t, (run_succ hstep).trans hrun, ht, htpins, htafter.trans huafter, ?_⟩
    have hcount : ((p :: rest).filter Pins.moves).length = p.moves.toNat + (rest.filter Pins.moves).length := by
      cases hm : p.moves <;> simp [hm, Nat.add_comm]
    rw [hpin] at hpay
    omega

/-- After the schedule, an environment that moves for ever: every cycle pays a byte, until none is owed. -/
theorem State.Runnable.progress_after : ∀ (n : Nat) {s : State}, s.Runnable → s.pins = [] →
    s.pinsAfter.moves = true →
    ∃ t, Host.Core.run Sys2Proof.core n s = .next t ∧ t.Runnable ∧ t.owed ≤ s.owed - n
  | 0, s, hs, _, _ => ⟨s, rfl, hs, le_rfl⟩
  | n + 1, s, hs, hpins, hm => by
    have hpin : s.pin = s.pinsAfter := by rw [State.pin, hpins]; rfl
    obtain ⟨-, -, hr⟩ := moves_iff.mp hm
    obtain ⟨u, hstep, hu, hpay⟩ := hs.progress (by rw [hpin, hr])
    obtain ⟨-, -, hupins, huafter⟩ := step_keeps_input_cfg hstep
    obtain ⟨t, hrun, ht, hpays⟩ := progress_after n hu (by rw [hupins, hpins]; rfl) (by rw [huafter, hm])
    refine ⟨t, (run_succ hstep).trans hrun, ht, ?_⟩
    rw [hpin, hm, Bool.toNat_true] at hpay
    omega

/-! ## Runs over a loaded sequence -/

/-- A legal build with a sequence loaded meets the launch premises under every schedule: the record of an instruction
names its variant (R12, R189). -/
theorem State.launch_load {cfg : Config} (hcfg : cfg.wf = true) (is : List Instr) (pins : List Pins) (after : Pins) :
    State.Launch { State.load cfg (is.map Instr.record) with pins := pins, pinsAfter := after } := by
  refine ⟨rfl, rfl, rfl, rfl, rfl, fun r hr => ?_, hcfg⟩
  obtain ⟨i, -, rfl⟩ := List.mem_map.mp hr
  cases i <;> rfl

/-- What a run over a loaded sequence has to put out: N + M bytes (R146). -/
theorem State.owed_load {cfg : Config} (hcfg : cfg.wf = true) (is : List Instr) (pins : List Pins) (after : Pins) :
    State.owed { State.load cfg (is.map Instr.record) with pins := pins, pinsAfter := after } =
      is.length + movCount is := by
  have hw : 8 ≤ cfg.opw := by simpa [Config.wf] using hcfg
  rw [State.owed_of_idle (by rfl), State.remainingInstrs]
  simp only [State.load_input, State.load_ipos, State.load_cfg, List.drop_zero]
  rw [filterMap_instr_records, encodeSeq_map_onPorts hw, encodeSeq_length]

/-! ## The statements -/

/-- Settles O44, by the kinds of cycle that answer a next state. -/
theorem stepKeepsAgreementWithEncodeSeq : Obligations.StepKeepsAgreementWithEncodeSeq :=
  fun _ _ => step_keeps_agrees

/-- Settles O14, by induction on the sequence. -/
theorem byteCountIsInstructionsPlusMovs : Obligations.ByteCountIsInstructionsPlusMovs :=
  encodeSeq_length

/-- Settles O23: with `ph` = 0 the frame is ACCEPT's, with `ph` = 1 it is DRAIN's, and each writes at `opos`. -/
theorem instructionFrame : Obligations.InstructionFrame := by
  intro i s t h
  rcases exec_cases i s with ⟨hp, he⟩ | ⟨hp, he⟩ <;> cases he.symm.trans h
  · have htb (hv : i.variant ≠ .mov) : (rom i.variant).tb = false := by
      rw [Bool.eq_false_iff]
      intro htb
      obtain ⟨d, v, rfl⟩ := Instr.eq_mov_of_tb htb
      exact hv rfl
    have hfirst : (encode s.cfg.narrowMode i).head? =
        some ((rom i.variant).firstByte s.cfg.narrowMode (portsOf i).1 (portsOf i).2) := by
      rw [encode_eq_firstByte, List.head?_cons]
    simp +contextual [hp, htb, hfirst, Memory.read_write_self, Memory.read_write_other]
  · simp +contextual [hp, Memory.read_write_self, Memory.read_write_other]

/-- Settles O26: the offer of the values on the ports is the ACCEPT of the ROM row the tag addresses. -/
theorem acceptCycleFollowsTheRomRow : Obligations.AcceptCycleFollowsTheRomRow := by
  refine ⟨fun s r hd hr hrdy hoff hp ho => ?_, fun s i h => ?_⟩
  · have haction := State.action_of_offered hd hr hrdy hoff hp ho
    refine ⟨fun v hv => ?_, fun htag => ?_, ?_⟩
    · have hi : r.instr s.cfg.opw =
          some (Instr.ofVariant v (portValue s.cfg.opw r.dest) (portValue s.cfg.opw r.source)) := by
        rw [PortRecord.instr, hv]; rfl
      rw [hi] at haction
      simp only [step, haction, Option.elim_some]
      rw [exec_ofVariant, State.offer_idle (s := s.tick) hp, State.accept_eq, State.tick_ph, hp]
      rfl
    · have hi : r.instr s.cfg.opw = none := by rw [PortRecord.instr, Variant.ofTag_eq_none htag]; rfl
      rw [step, haction, hi]
      rfl
    · exact ofTag_isSome
  · obtain ⟨hp, r, ho, -⟩ := State.offered_of_accept h
    have hout := State.outTransfer_of_accept hp h
    exact ⟨hp, State.ipos_lt_of_offered ho, (State.inTransfer_eq_outTransfer hp).trans hout, hout⟩

/-- Settles O45: with nothing left to offer a cycle stalls, and all of `IN` has been accepted. -/
theorem completeStateIsFinal : Obligations.CompleteStateIsFinal := by
  refine ⟨fun s hc hd hr => step_of_stall (State.action_of_complete hd hr hc), fun s hp => ?_, fun s hag hc => ?_⟩
  · simp [State.complete, hp]
  · obtain ⟨-, hipos⟩ := State.complete_iff.mp hc
    refine ⟨State.bytes_of_complete hag hc, ?_⟩
    obtain ⟨hlen, -⟩ := hag
    rwa [State.acceptedInstrs, hipos, List.take_length] at hlen

/-- Settles O46: a loaded sequence is a launch state, and the ports of a legal build do not show in the encoding. -/
theorem completeRunOutputsEncodeSeq : Obligations.CompleteRunOutputsEncodeSeq := by
  intro cfg is pins after k t hcfg hrun hc
  have hw : 8 ≤ cfg.opw := by simpa [Config.wf] using hcfg
  rw [bytes_of_complete_run (State.launch_load hcfg is pins after) hrun hc]
  simp only [State.load_input, State.load_cfg]
  rw [filterMap_instr_records, encodeSeq_map_onPorts hw]

/-- Settles O48: N + M bytes are owed at the start, a moving cycle pays one, and no cycle pays more. -/
theorem runsComplete : Obligations.RunsComplete := by
  intro cfg is pins after hcfg s
  have hs : s.Runnable := State.runnable_of_launch (State.launch_load hcfg is pins after)
  have howed : s.owed = is.length + movCount is := State.owed_load hcfg is pins after
  refine ⟨fun hr hmoves => ?_, fun hr hafter => ?_, fun k t hk hrun => ?_⟩
  · obtain ⟨t, hrun, ht, -, -, hpaid⟩ := State.Runnable.progress_schedule pins hs rfl hr
    exact ⟨t, hrun, ht.complete_of_owed (by omega)⟩
  · obtain ⟨u, hrun, hu, hupins, huafter, hpaid⟩ := State.Runnable.progress_schedule pins hs rfl hr
    obtain ⟨t, hrun', ht, hpaid'⟩ :=
      State.Runnable.progress_after (is.length + movCount is) hu hupins (by rw [huafter]; exact hafter)
    exact ⟨t, (run_add _ _ hrun).trans hrun', ht.complete_of_owed (by omega)⟩
  · have hpaid := owed_le_run k s hrun
    rw [Bool.eq_false_iff]
    intro hc
    have hnone := State.owed_of_complete hc
    omega

/-- Settles O7, row by row of the ROM. -/
theorem encodeIsRomPacking : Obligations.EncodeIsRomPacking := by
  intro m v d n
  cases v <;> rfl

/-- Settles O22: the effect of DRAIN, written out. -/
theorem pendingImmediateGoesBeforeAnyInstruction : Obligations.PendingImmediateGoesBeforeAnyInstruction :=
  fun _ _ hp => exec_pending hp

/-- Settles O24, by the kind of the cycle. -/
theorem stepRunsTheOfferedInstruction : Obligations.StepRunsTheOfferedInstruction := by
  intro s r i hd hr hrdy hoff hp ho hi
  rw [step, State.action_of_offered hd hr hrdy hoff hp ho, hi]
  rfl

/-- Settles O27: ACCEPT and the stall for want of an offer need `ph` = 0. -/
theorem drainCycleEmitsTheHeldByte : Obligations.DrainCycleEmitsTheHeldByte := by
  intro s hp
  refine ⟨fun i h => ?_, State.inReady_of_pending hp, fun hr => ?_, fun hd hr hrdy => ?_, fun hd => ?_⟩
  · obtain ⟨hidle, -⟩ := State.offered_of_accept h
    simp [hp] at hidle
  · rw [State.outValid_of_pending hp, hr]; rfl
  · exact step_of_drain (State.action_of_pending hd hr hrdy hp)
  · rcases s.action_cases with ⟨ha, -⟩ | ⟨ha, -⟩ | ⟨-, -, -, hd'⟩ | ⟨-, -, -, ⟨ha, -⟩ | ⟨hidle, -⟩⟩
    · exact .inr (.inr ha)
    · exact .inr (.inl ha)
    · simp [hd] at hd'
    · exact .inl ha
    · simp [hp] at hidle

end Sys2Proof.Machine
end

section
/-! PROOFS. The statements about exceptions (60_exceptions.md): the two refusals a step can answer, each the breach of a
duty of the host (R169), and the hand-over of a parsed text to the block (R161). -/

namespace Sys2Proof.Machine

variable {s : State} {r : PortRecord} {x : Refusal} {fe : FrontEnd} {cfg : Config} {name text : List Char} {w : Nat}

/-! ## Refused steps -/

/-- A record presents no instruction exactly when its tag names no variant (R12). -/
theorem instr_eq_none_iff : r.instr w = none ↔ Variant.ofTag r.tag = none := by
  simp [PortRecord.instr]

/-- Only the tags 10 to 15 name no variant (R12). -/
theorem ten_le_of_ofTag_eq_none {tag : BitVec 4} (h : Variant.ofTag tag = none) : 10 ≤ tag.toNat := by
  by_contra hlt
  have hsome := ofTag_isSome (tag := tag) (by omega)
  simp [h] at hsome

/-- Everything a refused step can be: use before the first reset (R188), or an offered tag that names no variant
(R166). -/
theorem step_refused_cases (h : step s = .refused x) :
    (x = .usedBeforeReset ∧ s.resetDone = false ∧ s.pin.rst = false ∧ s.pin.outReady = true) ∨
    (s.pin.offer = true ∧ ∃ r, s.offered = some r ∧ x = .reservedTag r.tag ∧ Variant.ofTag r.tag = none) := by
  rcases s.action_cases with ⟨-, hr⟩ | ⟨ha, -⟩ | ⟨ha, hr, hrdy, hd⟩ |
      ⟨-, -, -, ⟨ha, -⟩ | ⟨hp, hoff, r, ho, ⟨ha, hi⟩ | ⟨i, ha, -⟩⟩⟩
  · cases (step_of_rst hr).symm.trans h
  · cases (step_of_stall ha).symm.trans h
  · rw [step, ha] at h
    cases h
    exact .inl ⟨rfl, hd, hr, hrdy⟩
  · cases (step_of_drain ha).symm.trans h
  · rw [step, ha] at h
    cases h
    exact .inr ⟨hoff, r, ho, rfl, instr_eq_none_iff.mp hi⟩
  · cases (step_of_accept hp ha).symm.trans h

/-- A refused step is the breach of a duty of the host in that cycle (R169). -/
theorem not_hostDuty_of_refused (h : step s = .refused x) : ¬ s.HostDuty := by
  rintro ⟨-, htags, hreset⟩
  rcases step_refused_cases h with ⟨-, hd, hr, -⟩ | ⟨hoff, r, ho, -, hnone⟩
  · simp [hd, hr] at hreset
  · have hsome := htags hoff r ho
    simp [hnone] at hsome

/-! ## Handing a text over to the block -/

/-- A text that parses loads the block with the records of its instructions. -/
theorem startRun_of_instrs {is : List Instr} (h : parse fe name text = .instrs is) :
    startRun fe cfg name text = some (State.load cfg (is.map Instr.record)) := by
  rw [startRun, h]

/-- A text that fails loads nothing. -/
theorem startRun_of_failed {d : Diagnostic} (h : parse fe name text = .failed d) :
    startRun fe cfg name text = none := by
  rw [startRun, h]

/-- A block that has just been loaded has accepted nothing (R189). -/
theorem State.acceptedInstrs_load (l : List PortRecord) : (State.load cfg l).acceptedInstrs = [] := rfl

/-! ## The statements -/

/-- Settles O38: a step answers a next state or a refusal, and a refusal is the breach of a duty. -/
theorem stepRefusesOnlyBrokenDuties : Obligations.StepRefusesOnlyBrokenDuties := by
  refine ⟨fun s hduty => ?_, fun s x h => ?_⟩
  · cases h : step s with
    | next t => exact ⟨t, rfl⟩
    | fault f => cases f
    | refused x => exact absurd hduty (not_hostDuty_of_refused h)
  · rcases step_refused_cases h with hreset | ⟨-, r, ho, hx, hnone⟩
    · exact .inl hreset
    · exact .inr ⟨r, ho, hx, ten_le_of_ofTag_eq_none hnone⟩

/-- Settles O53: the loaded block is a launch state, and its records present the parsed instructions, narrowed to the
ports (R11). -/
theorem failedParseStartsNothing : Obligations.FailedParseStartsNothing := by
  intro fe cfg name text hcfg
  refine ⟨fun is h => ⟨_, startRun_of_instrs h, ?_, State.acceptedInstrs_load _, ?_⟩, fun d => startRun_of_failed⟩
  · exact State.launch_load hcfg is [] Pins.ready
  · rw [State.load_input, List.map_map]
    exact List.map_congr_left fun i _ => record_instr cfg.opw i

end Sys2Proof.Machine
end

section
/-! PROOFS. The statements about reset, cut runs, back-pressure and the launch premises (70_reset_and_hazards.md). A run
from a launch state is never refused because every step keeps it runnable; an unfair environment stalls the block for
ever because one cycle gives the state back unchanged. -/

namespace Sys2Proof

variable {is js : List Instr} {rest : List Byte}

/-! ## What follows an encoded sequence in a stream -/

/-- A stream that starts with the encoding of a sequence goes on with the encoding of a sequence: the decoder takes one
instruction at a time off both readings of the bytes. -/
theorem exists_encodeSeq_of_append (h : encodeSeq .field is ++ rest = encodeSeq .field js) :
    ∃ ks, rest = encodeSeq .field ks := by
  induction is generalizing js with
  | nil => exact ⟨js, h⟩
  | cons i is ih =>
    have hread := decode_encode i (encodeSeq .field is ++ rest)
    rw [← List.append_assoc, ← encodeSeq_cons, h] at hread
    cases js with
    | nil => cases hread
    | cons j js =>
      rw [encodeSeq_cons, decode_encode] at hread
      exact ih (Decoded.instr.inj hread).2.symm

/-- The decoder takes no instruction off a Mov word without its immediate (R181). -/
theorem decode_loneMovWord (d : Nat) : decode [packField 1 d 0] = .rejected .loneMovWord := by
  simp [decode, packField_ne_hltByte]

/-- A Mov word alone is the encoding of no sequence. -/
theorem loneMovWord_ne_encodeSeq (d : Nat) (is : List Instr) : [packField 1 d 0] ≠ encodeSeq .field is := by
  intro h
  cases is with
  | nil => cases h
  | cons i is =>
    have hread := decode_loneMovWord d
    rw [h, encodeSeq_cons, decode_encode] at hread
    cases hread

end Sys2Proof

namespace Sys2Proof.Machine

variable {s t u : State} {k : Nat}

/-! ## Reset cycles -/

/-- In a reset cycle neither channel completes a handshake (R180). -/
theorem State.no_handshake_of_rst (h : s.pin.rst = true) : s.inReady = false ∧ s.outValid = false := by
  simp [State.inReady, State.outValid, h]

/-- A cycle without reset leaves the mark of a cut run alone. -/
theorem cutRun_of_step (hr : s.pin.rst = false) (h : step s = .next t) : t.cutRun = s.cutRun := by
  rcases step_next_cases h with ⟨hr', -⟩ | ⟨-, -, rfl⟩ | ⟨-, -, -, rfl⟩ | ⟨-, -, r, i, -, -, -, rfl⟩
  · simp [hr] at hr'
  · rfl
  · rfl
  · exact State.accept_cutRun ..

/-- A cycle that does not reset a pending immediate does not mark an unmarked run. -/
theorem cutRun_eq_false_of_step (hcut : s.pin.rst = true → s.ph = .idle) (hs : s.cutRun = false)
    (h : step s = .next t) : t.cutRun = false := by
  cases hr : s.pin.rst with
  | true =>
    cases (step_of_rst hr).symm.trans h
    simp [hcut hr]
  | false => exact (cutRun_of_step hr h).trans hs

/-! ## Stalled cycles -/

/-- Without a ready sink no step is enabled (R184). -/
theorem State.action_of_sink_busy (hr : s.pin.rst = false) (hrdy : s.pin.outReady = false) : s.action = .stall := by
  simp [State.action, hr, hrdy]

/-- With `ph` = 0 and nothing offered no step is enabled (R168). -/
theorem State.action_of_nothing_offered (hd : s.resetDone = true) (hr : s.pin.rst = false) (hp : s.ph = .idle)
    (hv : s.inValid = false) : s.action = .stall := by
  rcases s.action_cases with ⟨-, hr'⟩ | ⟨ha, -⟩ | ⟨-, -, -, hd'⟩ | ⟨-, -, -, ⟨-, hp'⟩ | ⟨-, hoff, r, ho, -⟩⟩
  · simp [hr] at hr'
  · exact ha
  · simp [hd] at hd'
  · simp [hp] at hp'
  · simp [State.inValid, hoff, ho] at hv

theorem State.inReady_of_sink_busy (hrdy : s.pin.outReady = false) : s.inReady = false := by
  simp [State.inReady, hrdy]

/-- After the end of the schedule no entry is left to use up. -/
theorem State.tick_of_schedule_end (h : s.pins = []) : s.tick = s := by
  cases s
  cases h
  rfl

/-! ## Runs -/

/-- A state that a step gives back unchanged is never left. -/
theorem run_of_step_eq_self (h : step s = .next s) (k : Nat) : Host.Core.run Sys2Proof.core k s = .next s := by
  induction k with
  | zero => rfl
  | succ k ih => rw [run_succ h, ih]

/-- A block that keeps going is never refused, however long the run. -/
theorem State.Runnable.run_next (hs : s.Runnable) (k : Nat) : ∃ t, Host.Core.run Sys2Proof.core k s = .next t := by
  induction k generalizing s with
  | zero => exact ⟨s, rfl⟩
  | succ k ih =>
    obtain ⟨u, hstep⟩ := hs.step_next
    rw [run_succ hstep]
    exact ih (hs.of_step hstep)

/-- A run that is not cut in its `k + 1` cycles is not cut in its first one. -/
theorem State.NotCut.first (hn : s.NotCut (k + 1)) : s.pin.rst = true → s.ph = .idle :=
  hn 0 (Nat.zero_lt_succ k) s rfl

/-- A run that is not cut in its `k + 1` cycles is not cut in the `k` cycles after the first. -/
theorem State.NotCut.of_step (hn : s.NotCut (k + 1)) (h : step s = .next u) : u.NotCut k :=
  fun j hj w hrun => hn (j + 1) (Nat.succ_lt_succ hj) w ((run_succ h).trans hrun)

/-- A run that is not cut does not become marked as cut. -/
theorem State.NotCut.cutRun_eq_false (hn : s.NotCut k) (hs : s.cutRun = false)
    (h : Host.Core.run Sys2Proof.core k s = .next t) : t.cutRun = false := by
  induction k generalizing s with
  | zero => cases h; exact hs
  | succ k ih =>
    obtain ⟨u, hstep, hrun⟩ := exists_step_of_run_succ h
    exact ih (hn.of_step hstep) (cutRun_eq_false_of_step hn.first hs hstep) hrun

/-- The state after reset meets the launch premises (R26, R189). -/
theorem State.launch_reset : State.reset.Launch := State.launch_load (cfg := Config.default) rfl [] [] Pins.ready

/-! ## The statements -/

/-- Settles O30: what follows `EncSeq(is)` in a stream would have to be a stream, and a lone Mov word is none. -/
theorem cutMovIsNoStream : Obligations.CutMovIsNoStream := by
  intro is js d h
  obtain ⟨ks, hks⟩ := exists_encodeSeq_of_append h
  exact loneMovWord_ne_encodeSeq d ks hks

/-- Settles O54: the launch premises make the block runnable, and no cycle of the run sets the mark. -/
theorem launchedRunIsNeverRefused : Obligations.LaunchedRunIsNeverRefused := by
  rintro k s ⟨hl, hn⟩
  obtain ⟨t, hrun⟩ := (State.runnable_of_launch hl).run_next k
  obtain ⟨hinv, hag⟩ := run_inv_agrees_of_launch hl hrun
  obtain ⟨hinput, hcfg⟩ := run_keeps_input_cfg hrun
  exact ⟨t, hrun, hinv, hag, hinput, hcfg, fun hs => hn.cutRun_eq_false hs hrun⟩

/-- Settles O55: every cycle stalls, and with no schedule left to use up a stall gives the state back. -/
theorem unfairEnvironmentStallsForever : Obligations.UnfairEnvironmentStallsForever := by
  intro s hpins hr hunfair k
  have hpin : s.pin = s.pinsAfter := by rw [State.pin, hpins]; rfl
  rw [← hpin] at hr hunfair
  have hstall : s.action = .stall := by
    rcases hunfair with hrdy | ⟨hoff, hp, hd⟩
    · exact State.action_of_sink_busy hr hrdy
    · exact State.action_of_nothing_offered hd hr hp (by simp [State.inValid, hoff])
  have hstep := step_of_stall hstall
  rw [State.tick_of_schedule_end hpins] at hstep
  exact run_of_step_eq_self hstep k

/-- Settles O28, by the effect of the reset action. -/
theorem resetCycleRestartsTheBlock : Obligations.ResetCycleRestartsTheBlock := by
  intro s hr
  obtain ⟨hin, hout⟩ := State.no_handshake_of_rst hr
  exact ⟨hin, hout, _, step_of_rst hr, rfl, rfl, rfl, rfl, rfl, rfl, rfl⟩

/-- Settles O29: only the reset action writes the mark. -/
theorem resetRecordsACutRun : Obligations.ResetRecordsACutRun := by
  refine fun s t h => ⟨fun hr => ?_, fun hr => cutRun_of_step hr h⟩
  cases (step_of_rst hr).symm.trans h
  rfl

/-- Settles O31: both conditions make the cycle a stall, which uses up the schedule entry alone. -/
theorem stalledCycleChangesNothing : Obligations.StalledCycleChangesNothing :=
  fun _ hr =>
    ⟨fun hrdy => ⟨step_of_stall (State.action_of_sink_busy hr hrdy), State.inReady_of_sink_busy hrdy⟩,
      fun hd hp hv => step_of_stall (State.action_of_nothing_offered hd hr hp hv)⟩

/-- Settles O41: the state after reset is a launch state, and a launch state has put out nothing. -/
theorem launchHasStreamShape : Obligations.LaunchHasStreamShape :=
  ⟨State.inv_of_launch State.launch_reset, State.launch_reset,
    fun _ hl => ⟨State.inv_of_launch hl, State.agrees_of_launch hl⟩⟩

end Sys2Proof.Machine
end
